-- ==== Sys2Proof/Word.lean ====
section
/-!
DEFINITION. The widths of the core's data (spec/00_scope.md §4).
-/

namespace Sys2Proof

/-- The 16-bit unit of instructions and data (R1). -/
abbrev Word := BitVec 16

/-- A console character, `0 .. 255` (R8). -/
abbrev Byte := BitVec 8

/-- The operand field of a word, bits 11:0, an unsigned direct address (R49, R51). -/
abbrev Operand := BitVec 12

/-- The accumulator: 32 bits read as two's complement, so that its integer value
always lies in `ACC_MIN .. ACC_MAX` (R4, R15; DEDUCED, log entry 14). -/
abbrev Acc := BitVec 32

end Sys2Proof
end

