-- ==== Sys2Proof/Syntax.lean ====
section
/-!
DEFINITION. The instruction set: one constructor per row of spec/opcode_table.json (R52). The set is closed:
opcodes 8 to 15 name no instruction (R53).
-/

namespace Sys2Proof

/-- The eight instructions. The argument is the operand field, bits 11:0 (R49). -/
inductive Instr where
  /-- `LDA a`: load the accumulator (R85). -/
  | lda (a : Operand)
  /-- `STO a`: store the accumulator (R86). -/
  | sto (a : Operand)
  /-- `ADD a` (R88). -/
  | add (a : Operand)
  /-- `SUB a` (R89). -/
  | sub (a : Operand)
  /-- `JMP t` (R94). -/
  | jmp (t : Operand)
  /-- `JGE t`: jump if ACC is not negative (R95). -/
  | jge (t : Operand)
  /-- `JNE t`: jump if ACC is not zero (R96). -/
  | jne (t : Operand)
  /-- `STP` (R100). The operand bits are kept, so that no bit of the word is lost; execution ignores
  them (R54). -/
  | stp (x : Operand)
  deriving DecidableEq, Repr

end Sys2Proof
end

