-- ==== Sys2Proof/WellFormed.lean ====
section
/-!
DEFINITION. Which words are instructions (R53, R55). A term of Instr needs no check of its own: its operand is
12 bits by its type, and all 12 bits are legal in every instruction (R51, R54, R99). The one check is on the
word: bit 15 clear.
-/

namespace Sys2Proof

/-- The word names an instruction: words 0x8000 to 0xFFFF name none (R53). -/
def wordWellFormed (w : Word) : Bool := decide (w.toNat < 0x8000)

/-- An instruction's 4-bit opcode as a number (R52). -/
def Instr.opcodeNumber : Instr → Nat
  | .lda _ => 0
  | .sto _ => 1
  | .add _ => 2
  | .sub _ => 3
  | .jmp _ => 4
  | .jge _ => 5
  | .jne _ => 6
  | .stp _ => 7

/-- An instruction's operand field (R49). -/
def Instr.operandField : Instr → Operand
  | .lda a => a
  | .sto a => a
  | .add a => a
  | .sub a => a
  | .jmp t => t
  | .jge t => t
  | .jne t => t
  | .stp x => x

end Sys2Proof
end

