-- ==== Sys2Proof/Decode.lean ====
section
/-!
DEFINITION. The decoder and the encoder (spec/30_encoding.md). The decoder is total over all 16-bit words: one
of the eight instructions, or a rejection that names the opcode (R55).
-/

namespace Sys2Proof

/-- Why a word is no instruction. -/
inductive DecodeReject where
  /-- The opcode is one of 8 to 15 (R53). -/
  | illegalOpcode (opcode : Nat)
  deriving DecidableEq, Repr

/-- `IR[15:12]`, that is `IR >> 12` (R50). -/
def opcodeOf (w : Word) : Nat := (w >>> 12).toNat

/-- `IR[11:0]`, that is `IR & 0xFFF` (R50). -/
def operandOf (w : Word) : Operand := w.setWidth 12

/-- The opcode map (R52, R53). -/
def decode (w : Word) : Except DecodeReject Instr :=
  match opcodeOf w with
  | 0 => .ok (.lda (operandOf w))
  | 1 => .ok (.sto (operandOf w))
  | 2 => .ok (.add (operandOf w))
  | 3 => .ok (.sub (operandOf w))
  | 4 => .ok (.jmp (operandOf w))
  | 5 => .ok (.jge (operandOf w))
  | 6 => .ok (.jne (operandOf w))
  | 7 => .ok (.stp (operandOf w))
  | opcode => .error (.illegalOpcode opcode)

/-- The word with the given match value and operand: bits 15:12 from `top`, bits 11:0 from `a` (R49). -/
def packWord (top : Word) (a : Operand) : Word := top ||| a.setWidth 16

/-- The word of an instruction, from the match values of the opcode map (R52). -/
def encode : Instr → Word
  | .lda a => packWord 0x0000#16 a
  | .sto a => packWord 0x1000#16 a
  | .add a => packWord 0x2000#16 a
  | .sub a => packWord 0x3000#16 a
  | .jmp t => packWord 0x4000#16 t
  | .jge t => packWord 0x5000#16 t
  | .jne t => packWord 0x6000#16 t
  | .stp x => packWord 0x7000#16 x

/-- The low `nbits` bits of `w`, every bit above them zero, as a word. -/
def tableWord (nbits w : Nat) : Word := BitVec.ofNat 16 (w % 2 ^ nbits)

/-- The instruction read from an opcode-table word of `nbits` bits. Every instruction is one 16-bit word
(R56), so a longer one is none. -/
def decodeTableWord (nbits w : Nat) : Option Instr :=
  if nbits ≤ 16 then (decode (tableWord nbits w)).toOption else none

end Sys2Proof
end

