-- ==== Sys2Proof/Config.lean ====
section
/-!
DEFINITION. The parameters the spec fixes for every launch (spec/00_scope.md §4). The parameters a launch
chooses (MEM_SIZE, STEP_LIMIT, JUMP_FETCH_FOLDED, the host's schedule: R27) are fields of State, so that a
statement about every state is a statement about every value of them. The spec leaves no value open, so there
is no free value here.
-/

namespace Sys2Proof

/-- `IO_ADDR`: the console's address, whatever the memory size (R2). -/
def Config.ioAddr : Nat := 0xFFF

/-- `ACC_MIN = -2^31` (R4). -/
def Config.accMin : Int := -2147483648

/-- `ACC_MAX = 2^31 - 1` (R4). -/
def Config.accMax : Int := 2147483647

/-- `STEP_LIMIT` where the launch gives none: 0, unlimited (R6). -/
def Config.defaultStepLimit : Nat := 0

/-- `JUMP_FETCH_FOLDED` where the launch gives none (R7). -/
def Config.defaultJumpFetchFolded : Bool := true

/-- DESIGN CHOICE (log entry 1, safe): what a storage cell that the sparse list does not mention reads as.
Every cell below MEM_SIZE has a value of the load image (R125); a cell whose word is this one is simply not
listed, so no value is invented. -/
def Config.unlistedWord : Word := 0

end Sys2Proof
end

