-- ==== Sys2Proof/Machine/State.lean ====
section
/-!
DEFINITION. Everything the spec gives the machine (spec/10_state.md), as plain data, and its value after reset
(spec/70_reset_and_hazards.md R124).
-/

namespace Sys2Proof.Machine

/-- The controller's state (R18). -/
inductive Phase where
  | fetch
  | execute
  deriving DecidableEq, Repr

/-- Whether the run goes on (R19). -/
inductive Status where
  | running
  | halted
  | limitReached
  | faulted
  deriving DecidableEq, Repr

/-- The fault causes; no other exists (R103). -/
inductive Cause where
  | accessViolation
  | ioExhausted
  | illegalOpcode
  | accOverflow
  deriving DecidableEq, Repr

/-- The fault record (R20). -/
structure FaultRecord where
  cause : Cause
  addr : Nat
  deriving DecidableEq, Repr

/-- One cell of storage: its word address and its 16-bit word (R22, R28). The machine has no bytes in
storage (R39), so a cell holds a word. -/
abbrev WordCell := Nat × Word

/-- Storage: MEM_SIZE and the cells that differ from `Config.unlistedWord`, addresses strictly rising (R22).
MEM_SIZE is fixed at launch (R3). -/
structure Memory where
  size : Nat
  cells : List WordCell
  deriving DecidableEq, Repr

/-- One turn of the host's schedule (R27, R121): the core's, or a move of the host on the console input. -/
inductive HostTurn where
  | core
  | append (c : Byte)
  | close
  deriving DecidableEq, Repr

/-- The machine's state. The launch inputs of R27 are fields too, which no step changes (DESIGN CHOICE, log
entry 4). -/
structure State where
  /-- PC, the address of the next word to fetch (R13). -/
  pc : Nat
  /-- ACC (R15). -/
  acc : Acc
  /-- IR, the word being decoded or executed (R16). -/
  ir : Word
  /-- PHASE (R18). -/
  phase : Phase
  /-- STATUS (R19). -/
  status : Status
  /-- FAULT (R20). -/
  fault : Option FaultRecord
  /-- STEP_COUNT (R21). -/
  stepCount : Nat
  /-- MEM and MEM_SIZE (R22, R3). -/
  mem : Memory
  /-- IN_Q, oldest first (R23). -/
  inQ : List Byte
  /-- IN_CLOSED (R23). -/
  inClosed : Bool
  /-- OUT_Q, oldest first (R24). -/
  outQ : List Byte
  /-- STEP_LIMIT, a launch input; 0 is unlimited (R6). -/
  stepLimit : Nat
  /-- JUMP_FETCH_FOLDED, a launch input (R7). -/
  jumpFetchFolded : Bool
  /-- The part of the host's schedule not yet played (R27). DESIGN CHOICE (log entry 5). -/
  hostPlan : List HostTurn
  deriving DecidableEq, Repr

/-- Why `step` answers no next state. The faults of the spec are not here: they are next states with
STATUS = FAULTED and a fault record (R80; DEDUCED, log entry 7). -/
inductive Fault where
  /-- Raised by the core's turn when STATUS is not RUNNING: "no step -- the run is over" (R74, R82). Safe: the
  machine stops where the spec's core makes no step. It carries the STATUS the run ended with. -/
  | runOver (status : Status)
  deriving DecidableEq, Repr

/-- Why an instruction has no meaning. -/
inductive Refusal where
  /-- Raised by an arm of exec whose instruction has no meaning yet; no arm raises it now. Safe. -/
  | notModelled (mnemonic : String)
  deriving DecidableEq, Repr

/-- The machine right after reset (R124), before any image is supplied: MEM_SIZE = 0 and empty storage
(DESIGN CHOICE, log entry 2), no input and an open stream (DESIGN CHOICE, log entry 3), the default launch
inputs (R6, R7; log entry 4) and an idle host (DESIGN CHOICE, log entry 5). -/
def State.reset : State :=
  { pc := 0
    acc := 0
    ir := 0
    phase := .fetch
    status := .running
    fault := none
    stepCount := 0
    mem := { size := 0, cells := [] }
    inQ := []
    inClosed := false
    outQ := []
    stepLimit := Config.defaultStepLimit
    jumpFetchFolded := Config.defaultJumpFetchFolded
    hostPlan := [] }

end Sys2Proof.Machine
end

