-- ==== Sys2Proof/Machine/Ops.lean ====
section
/-!
DEFINITION. The shared operations: one-field updates of State, storage, the console, the two access primitives
(spec/20_memory.md), completing a transition, raising a fault (spec/40_controller.md R80), and the word fetch
that FETCH and a folded jump share.
-/

namespace Sys2Proof.Machine

/-- The outcome of a transition of this machine. -/
abbrev StepOutcome := Host.Outcome State Fault Refusal

/-! ### One-field updates -/

/-- `PC <- n` -/
def State.setPc (s : State) (n : Nat) : State := { s with pc := n }
/-- `ACC <- v` -/
def State.setAcc (s : State) (v : Acc) : State := { s with acc := v }
/-- `IR <- w` -/
def State.setIr (s : State) (w : Word) : State := { s with ir := w }
/-- `PHASE <- p` -/
def State.setPhase (s : State) (p : Phase) : State := { s with phase := p }
/-- `STATUS <- st` -/
def State.setStatus (s : State) (st : Status) : State := { s with status := st }
/-- `FAULT <- r` -/
def State.setFault (s : State) (r : FaultRecord) : State := { s with fault := some r }
/-- `STEP_COUNT <- STEP_COUNT + 1` (R75) -/
def State.tick (s : State) : State := { s with stepCount := s.stepCount + 1 }
/-- `MEM <- m` -/
def State.setMem (s : State) (m : Memory) : State := { s with mem := m }
/-- `IN_Q <- q` -/
def State.setInQ (s : State) (q : List Byte) : State := { s with inQ := q }
/-- `IN_CLOSED <- true`; nothing clears it (R121) -/
def State.closeInput (s : State) : State := { s with inClosed := true }
/-- `OUT_Q <- OUT_Q ++ [c]`, the only change OUT_Q ever sees (R24) -/
def State.emit (s : State) (c : Byte) : State := { s with outQ := s.outQ ++ [c] }
/-- The host's schedule from its next turn on (R27) -/
def State.setHostPlan (s : State) (turns : List HostTurn) : State := { s with hostPlan := turns }

/-! ### Conversions between ACC, words and characters -/

/-- A word read from storage as the integer it denotes: unsigned, never sign-extended (R38). -/
def wordValue (w : Word) : Int := (w.toNat : Int)

/-- The integer in ACC (R15). -/
def accValue (v : Acc) : Int := v.toInt

/-- ACC holding the integer `r`; exact for every `r` in `ACC_MIN .. ACC_MAX` (R4). -/
def accOfInt (r : Int) : Acc := BitVec.ofInt 32 r

/-- `v mod 2^16`, what a storage write keeps of the integer `v` (R37). -/
def storedWord (v : Int) : Word := BitVec.ofInt 16 v

/-- `v mod 2^8`, the character a console write emits for the integer `v` (R36). -/
def consoleChar (v : Int) : Byte := BitVec.ofInt 8 v

/-- A console character as a word, zero-extended (R35). -/
def wordOfChar (c : Byte) : Word := c.setWidth 16

/-! ### Storage -/

/-- The word the list gives address `a`. -/
def cellsGet : List WordCell → Nat → Word
  | [], _ => Config.unlistedWord
  | (b, w) :: rest, a => if b = a then w else cellsGet rest a

/-- The cell `(a, v)` in front of `rest`, left out where `v` is what an unlisted cell reads as. -/
def consCell (a : Nat) (v : Word) (rest : List WordCell) : List WordCell :=
  if v = Config.unlistedWord then rest else (a, v) :: rest

/-- The list with address `a` reading as `v`, its order kept. -/
def cellsPut : List WordCell → Nat → Word → List WordCell
  | [], a, v => consCell a v []
  | (b, w) :: rest, a, v =>
    if b < a then (b, w) :: cellsPut rest a v
    else if b = a then consCell a v rest
    else consCell a v ((b, w) :: rest)

/-- The canonical form from address `lo` on: addresses rising, below `size`, and no cell listed that reads as
an unlisted one does. -/
def cellsWf (size : Nat) : Nat → List WordCell → Bool
  | _, [] => true
  | lo, (a, w) :: rest =>
    decide (lo ≤ a) && decide (a < size) && decide (w ≠ Config.unlistedWord) && cellsWf size (a + 1) rest

/-- The storage is in its canonical form, so that equal storages are equal data. -/
def Memory.wf (m : Memory) : Bool := cellsWf m.size 0 m.cells

/-- `MEM[a]` (R22). -/
def Memory.get (m : Memory) (a : Nat) : Word := cellsGet m.cells a

/-- `MEM[a] <- v`. Its callers have tested `a < MEM_SIZE` (R32). -/
def Memory.put (m : Memory) (a : Nat) (v : Word) : Memory := { m with cells := cellsPut m.cells a v }

/-- The cells of an image whose word 0 stands at address `lo`. -/
def imageCells : Nat → List Word → List WordCell
  | _, [] => []
  | lo, w :: rest => consCell lo w (imageCells (lo + 1) rest)

/-- Storage sized to the image and filled from it: word `i` in cell `i` (R59, R125). -/
def Memory.ofImage (image : List Word) : Memory := { size := image.length, cells := imageCells 0 image }

/-! ### The access primitives -/

/-- What a read answers: a word and the state after it, a hold, or a fault (R31). -/
inductive ReadResult where
  | value (w : Word) (s : State)
  | hold
  | raise (cause : Cause) (addr : Nat)
  deriving DecidableEq, Repr

/-- What a write answers: the state after it, or a fault (R32). -/
inductive WriteResult where
  | done (s : State)
  | raise (cause : Cause) (addr : Nat)
  deriving DecidableEq, Repr

/-- `ConsoleRead()`: take a character; at the end of the stream raise; otherwise hold (R35). -/
def consoleRead (s : State) : ReadResult :=
  match s.inQ with
  | c :: rest => .value (wordOfChar c) (s.setInQ rest)
  | [] => if s.inClosed then .raise .ioExhausted Config.ioAddr else .hold

/-- `MemRead(addr, 1)`: the reserved address first, then the strict bound (R31, R33, R34). -/
def memRead (s : State) (addr : Nat) : ReadResult :=
  if addr = Config.ioAddr then consoleRead s
  else if addr ≥ s.mem.size then .raise .accessViolation addr
  else .value (s.mem.get addr) s

/-- `MemWrite(addr, 1, v)`: the reserved address first, then the strict bound (R32, R33, R34). -/
def memWrite (s : State) (addr : Nat) (v : Int) : WriteResult :=
  if addr = Config.ioAddr then .done (s.emit (consoleChar v))
  else if addr ≥ s.mem.size then .raise .accessViolation addr
  else .done (s.setMem (s.mem.put addr (storedWord v)))

/-! ### How a transition ends -/

/-- The transition completed: it counts one step (R75). -/
def complete (s : State) : StepOutcome := .next s.tick

/-- The transition held: nothing changed, and it is attempted again later (R84; DEDUCED, log entry 8). -/
def held (s : State) : StepOutcome := .next s

/-- `raise Fault(cause, addr)` in the state before the transition's writes: STATUS and FAULT are set, nothing
else is committed and no step is counted (R80, R112). The core has no handler, vector, saved register or
return (R113, R114): this is the whole of taking a fault (DEDUCED, log entry 7). -/
def raiseFault (cause : Cause) (addr : Nat) (s : State) : StepOutcome :=
  .next ((s.setStatus .faulted).setFault { cause := cause, addr := addr })

/-- The fault codes (R103). -/
def causeCode : Cause → Nat
  | .accessViolation => 1
  | .ioExhausted => 2
  | .illegalOpcode => 3
  | .accOverflow => 4

/-- Read the word at `addr` and go on with it; a hold or a fault of the read ends the transition. `use` is
given the state after the read, whose only change is a consumed character, so a fault that `use` raises keeps
it consumed (R80, R90). -/
def withRead (s : State) (addr : Nat) (use : Word → State → StepOutcome) : StepOutcome :=
  match memRead s addr with
  | .value w s' => use w s'
  | .hold => held s
  | .raise cause a => raiseFault cause a s

/-- Fetch the word at `addr`: `IR <- w; PC <- addr + 1; PHASE <- EXECUTE`. FETCH does this at PC (R76), a
folded taken jump at its target (R93). -/
def fetchAt (s : State) (addr : Nat) : StepOutcome :=
  withRead s addr fun w s' => complete (((s'.setIr w).setPc (addr + 1)).setPhase .execute)

end Sys2Proof.Machine
end

