-- ==== Sys2Proof/Machine/Flags.lean ====
section
/-!
DEFINITION. The core has no flags or condition codes (R17). What other machines keep in flags is computed here
where it is used: the branch resolver's conditions on ACC (R92) and the overflow test of the ALU (R90).
-/

namespace Sys2Proof.Machine

/-- `JGE` is taken: `ACC >= 0`, signed (R92). -/
def jgeTaken (v : Acc) : Bool := decide (0 ≤ accValue v)

/-- `JNE` is taken: `ACC != 0` (R92). -/
def jneTaken (v : Acc) : Bool := decide (accValue v ≠ 0)

/-- The exact result fits ACC: it lies in `ACC_MIN .. ACC_MAX` (R87, R90). -/
def fitsAcc (r : Int) : Bool := decide (Config.accMin ≤ r) && decide (r ≤ Config.accMax)

end Sys2Proof.Machine
end

