-- ==== Sys2Proof/Machine/Operands.lean ====
section
/-!
DEFINITION. The operand forms. The core has one: the 12-bit operand is a direct address, with no base,
index, offset or update (R51, spec/41_load_store.md).
-/

namespace Sys2Proof.Machine

/-- The effective address of an operand: zero-extended, `0 .. 4095` (R51). -/
def directAddr (a : Operand) : Nat := a.toNat

/-- Read the word a direct operand names (R31). -/
def withOperand (s : State) (a : Operand) (use : Word → State → StepOutcome) : StepOutcome :=
  withRead s (directAddr a) use

end Sys2Proof.Machine
end

