-- ==== Sys2Proof/Machine/Arithmetic.lean ====
section
/-!
DEFINITION. The ALU, ADD and SUB (spec/42_arithmetic.md).
-/

namespace Sys2Proof.Machine

/-- Write the exact result `r` to ACC, or raise ACC_OVERFLOW with the operand's address (R87, R90). -/
def aluResult (r : Int) (a : Operand) (s : State) : StepOutcome :=
  if fitsAcc r then complete ((s.setAcc (accOfInt r)).setPhase .fetch)
  else raiseFault .accOverflow (directAddr a) s

/-- `ADD a` (R88). -/
def execAdd (a : Operand) (s : State) : StepOutcome :=
  withOperand s a fun w s' => aluResult (accValue s'.acc + wordValue w) a s'

/-- `SUB a` (R89). -/
def execSub (a : Operand) (s : State) : StepOutcome :=
  withOperand s a fun w s' => aluResult (accValue s'.acc - wordValue w) a s'

end Sys2Proof.Machine
end

