-- ==== Sys2Proof/Machine/Control.lean ====
section
/-!
DEFINITION. JMP, JGE and JNE (spec/43_control_transfer.md).
-/

namespace Sys2Proof.Machine

/-- `TakeJump(t)`: folded, the target's word is fetched within this transition; otherwise the next FETCH reads
it (R93). -/
def takeJump (t : Operand) (s : State) : StepOutcome :=
  if s.jumpFetchFolded then fetchAt s (directAddr t)
  else complete ((s.setPc (directAddr t)).setPhase .fetch)

/-- A jump that is not taken changes only PHASE (R97). -/
def fallThrough (s : State) : StepOutcome := complete (s.setPhase .fetch)

/-- `JMP t` (R94). -/
def execJmp (t : Operand) (s : State) : StepOutcome := takeJump t s

/-- `JGE t` (R95). -/
def execJge (t : Operand) (s : State) : StepOutcome :=
  if jgeTaken s.acc then takeJump t s else fallThrough s

/-- `JNE t` (R96). -/
def execJne (t : Operand) (s : State) : StepOutcome :=
  if jneTaken s.acc then takeJump t s else fallThrough s

end Sys2Proof.Machine
end

