-- ==== Sys2Proof/Machine/LoadStore.lean ====
section
/-!
DEFINITION. LDA and STO (spec/41_load_store.md).
-/

namespace Sys2Proof.Machine

/-- `LDA a` (R85). -/
def execLda (a : Operand) (s : State) : StepOutcome :=
  withOperand s a fun w s' => complete ((s'.setAcc (accOfInt (wordValue w))).setPhase .fetch)

/-- `STO a` (R86). It never holds. -/
def execSto (a : Operand) (s : State) : StepOutcome :=
  match memWrite s (directAddr a) (accValue s.acc) with
  | .done s' => complete (s'.setPhase .fetch)
  | .raise cause addr => raiseFault cause addr s

end Sys2Proof.Machine
end

