-- ==== Sys2Proof/Machine/System.lean ====
section
/-!
DEFINITION. STP (spec/44_system.md).
-/

namespace Sys2Proof.Machine

/-- `STP`: STATUS becomes HALTED and the transition counts; PC, ACC, IR, PHASE and MEM are unchanged, and the
operand bits are ignored (R54, R100). -/
def execStp (_x : Operand) (s : State) : StepOutcome := complete (s.setStatus .halted)

end Sys2Proof.Machine
end

