-- ==== Sys2Proof/Machine/Dispatch.lean ====
section
/-!
DEFINITION. The EXECUTE dispatch (spec/40_controller.md R77): one arm per constructor of Instr.
-/

namespace Sys2Proof.Machine

def exec (i : Instr) (s : State) : Host.Outcome State Fault Refusal :=
  match i with
  | .lda a => Sys2Proof.Machine.execLda a s
  | .sto a => Sys2Proof.Machine.execSto a s
  | .add a => Sys2Proof.Machine.execAdd a s
  | .sub a => Sys2Proof.Machine.execSub a s
  | .jmp t => Sys2Proof.Machine.execJmp t s
  | .jge t => Sys2Proof.Machine.execJge t s
  | .jne t => Sys2Proof.Machine.execJne t s
  | .stp x => Sys2Proof.Machine.execStp x s

end Sys2Proof.Machine
end

