-- ==== Sys2Proof/Machine/Controller.lean ====
section
/-!
DEFINITION. The fetch-execute controller (spec/40_controller.md) and the host's turns (spec/60_exceptions.md
R121).
-/

namespace Sys2Proof.Machine

/-- The FETCH transition (R76). -/
def fetchTransition (s : State) : StepOutcome := fetchAt s s.pc

/-- The EXECUTE transition: decode IR and dispatch; an opcode of 8 or more raises ILLEGAL_OPCODE with the
address the word was fetched from, before any access (R77, R78, R111). PC is at least 1 in every EXECUTE a run
reaches (R13); log entry 13 says what the record holds otherwise. -/
def executeTransition (s : State) : StepOutcome :=
  match decode s.ir with
  | .ok i => exec i s
  | .error (.illegalOpcode _) => raiseFault .illegalOpcode (s.pc - 1) s

/-- The step limit is set and reached (R74). -/
def limitReached (s : State) : Bool := decide (s.stepLimit ≠ 0 ∧ s.stepLimit ≤ s.stepCount)

/-- `CoreStep()`: one attempt to make one transition (R74). After the run's end there is no step; the limit is
tested before the transition. -/
def coreStep (s : State) : StepOutcome :=
  if s.status ≠ .running then .fault (.runOver s.status)
  else if limitReached s then .next (s.setStatus .limitReached)
  else
    match s.phase with
    | .fetch => fetchTransition s
    | .execute => executeTransition s

/-- The host appends a character, only while the stream is open (R121). A scheduled append after the close is
no move of the host, so nothing happens (DESIGN CHOICE, log entry 5). -/
def hostAppend (c : Byte) (s : State) : State :=
  if s.inClosed then s else s.setInQ (s.inQ ++ [c])

/-- The host closes the input; this cannot be undone (R121). -/
def hostClose (s : State) : State := s.closeInput

/-- One turn of the schedule, in the state whose schedule no longer holds it (R73, R121). -/
def playTurn (turn : HostTurn) (s : State) : StepOutcome :=
  match turn with
  | .core => coreStep s
  | .append c => .next (hostAppend c s)
  | .close => .next (hostClose s)

/-- The machine's step: the next turn of the schedule, and the core's once no turn is left (R73). -/
def machineStep (s : State) : StepOutcome :=
  match s.hostPlan with
  | [] => coreStep s
  | turn :: rest => playTurn turn (s.setHostPlan rest)

/-- Storage large enough for address `a`, with `w` in that cell; the console's address has no reachable cell
(R33). -/
def placeWord (m : Memory) (a : Nat) (w : Word) : Memory :=
  if a = Config.ioAddr then m else { m with size := max m.size (a + 1) }.put a w

/-- The state with the word `w` as the instruction the next transition executes (log entry 6). In FETCH: `w`
stored at PC, the image grown to hold it, and the FETCH of it completed. In EXECUTE: `w` in IR, where that
transition takes its instruction. -/
def presentWord (s : State) (w : Word) : State :=
  match s.phase with
  | .fetch => ((((s.setMem (placeWord s.mem s.pc w)).setIr w).setPc (s.pc + 1)).setPhase .execute).tick
  | .execute => s.setIr w

end Sys2Proof.Machine
end

