-- ==== Sys2Proof/Machine/Step.lean ====
section
/-!
DEFINITION. One step of the machine: the host's turn or one controller transition of the core (R73, R74).
-/

namespace Sys2Proof.Machine

/-- One step (R73, R74). -/
def step (s : State) : Host.Outcome State Fault Refusal := machineStep s

/-- The state in which the next step runs the instruction whose bits are `w` (log entry 6). -/
def State.withFetchWord (s : State) (nbits w : Nat) : State := presentWord s (tableWord nbits w)

end Sys2Proof.Machine
end

