-- ==== Sys2Proof/Machine/Assembler.lean ====
section
/-!
DEFINITION. The toolchain contract: the reference two-pass assembler and the stricter transcriber
(spec/30_encoding.md R60 to R72). It is not part of the core (R11): the machine does not use it. A source is
its list of lines, without line terminators.
-/

namespace Sys2Proof.Assembler

abbrev Line := List Char

/-! ### Line classes -/

/-- A line has at most 90 characters (R60). -/
def maxLineLength : Nat := 90

/-- The whitespace characters: space, and codes 9 to 13. PRESUMED (log entry 9): the C library's set. -/
def isSpace (c : Char) : Bool := decide (c.toNat = 32 ∨ 9 ≤ c.toNat ∧ c.toNat ≤ 13)

inductive Mnemonic where
  | lda | sto | add | sub | jmp | jge | jne | stp
  deriving DecidableEq, Repr

/-- The mnemonics, matched case-sensitively (R61). -/
def mnemonicOf (l : Line) : Option Mnemonic :=
  if l = ['L', 'D', 'A'] then some .lda
  else if l = ['S', 'T', 'O'] then some .sto
  else if l = ['A', 'D', 'D'] then some .add
  else if l = ['S', 'U', 'B'] then some .sub
  else if l = ['J', 'M', 'P'] then some .jmp
  else if l = ['J', 'G', 'E'] then some .jge
  else if l = ['J', 'N', 'E'] then some .jne
  else if l = ['S', 'T', 'P'] then some .stp
  else none

/-- The instruction a mnemonic names, with its operand field (R52). -/
def instrOf : Mnemonic → Operand → Instr
  | .lda => .lda
  | .sto => .sto
  | .add => .add
  | .sub => .sub
  | .jmp => .jmp
  | .jge => .jge
  | .jne => .jne
  | .stp => .stp

/-- The class of a line, with the text after what classified it (R61). -/
inductive LineClass where
  | ignored
  | comment
  | label (rest : Line)
  | numeric (rest : Line)
  | character (rest : Line)
  | instruction (m : Mnemonic) (rest : Line)
  | malformed
  deriving DecidableEq, Repr

/-- Classification by the first character (R61); an over-long line is malformed, whatever it begins with (R60;
DEDUCED, log entry 12). -/
def classify (l : Line) : LineClass :=
  if l.length > maxLineLength then .malformed
  else
    match l with
    | [] => .ignored
    | c :: rest =>
      if isSpace c then .ignored
      else if c = ';' then .comment
      else if c = ':' then .label rest
      else if c = '#' then .numeric rest
      else if c = '$' then .character rest
      else
        match mnemonicOf (l.take 3) with
        | some m => .instruction m (l.drop 3)
        | none => .malformed

/-- The classes that take an address slot in pass 1; a malformed line does (R62, R68). -/
def takesSlot : LineClass → Bool
  | .ignored => false
  | .comment => false
  | .label _ => false
  | .numeric _ => true
  | .character _ => true
  | .instruction _ _ => true
  | .malformed => true

/-! ### Tokens and literals -/

def flushToken (token : Line) : List Line := if token = [] then [] else [token]

/-- The whitespace-delimited tokens of a line, the first of them begun with `token`. -/
def tokensFrom (token : Line) : Line → List Line
  | [] => flushToken token
  | c :: rest => if isSpace c then flushToken token ++ tokensFrom [] rest else tokensFrom (token ++ [c]) rest

def tokens (l : Line) : List Line := tokensFrom [] l

/-- The value of a digit in bases up to 16, either case. -/
def digitValue (c : Char) : Option Nat :=
  if 48 ≤ c.toNat ∧ c.toNat ≤ 57 then some (c.toNat - 48)
  else if 97 ≤ c.toNat ∧ c.toNat ≤ 102 then some (c.toNat - 87)
  else if 65 ≤ c.toNat ∧ c.toNat ≤ 70 then some (c.toNat - 55)
  else none

/-- The number the digits of `base` spell, stopping at the first character that is none (R71). -/
def digitsValue (base acc : Nat) : Line → Nat
  | [] => acc
  | c :: rest =>
    match digitValue c with
    | some d => if d < base then digitsValue base (acc * base + d) rest else acc
    | none => acc

/-- An unsigned literal by the C library's base-0 rules (R71), exact for any length (PRESUMED, log entry 11). -/
def unsignedLiteral : Line → Nat
  | '0' :: 'x' :: rest => digitsValue 16 0 rest
  | '0' :: 'X' :: rest => digitsValue 16 0 rest
  | '0' :: rest => digitsValue 8 0 rest
  | l => digitsValue 10 0 l

def signedLiteral : Line → Int
  | '-' :: rest => -(unsignedLiteral rest : Int)
  | '+' :: rest => (unsignedLiteral rest : Int)
  | l => (unsignedLiteral l : Int)

/-- `parse_int` (R71). Text with no digits is 0. -/
def parseInt (l : Line) : Int := signedLiteral (l.dropWhile isSpace)

/-! ### The two passes -/

/-- Why the reference assembler gives no image. -/
inductive AsmStop where
  /-- A label reference that the table cannot resolve: fatal (R67). -/
  | unresolvedLabel (line : Nat)
  /-- The source does not say what the line means (N-30.3, N-30.5, N-30.6; log entry 10). Safe. -/
  | unspecified (line : Nat)
  deriving DecidableEq, Repr

/-- The label table, newest definition first. -/
abbrev LabelTable := List (Line × Nat)

/-- The last definition in the file wins (R63). -/
def lookupLabel (table : LabelTable) (name : Line) : Option Nat := table.lookup name

/-- Pass 1 from line number `n` and address `addr` on (R62). The label's token may stand after whitespace
(DEDUCED, log entry 16), and its name may hold any characters but whitespace, `;` and `:` among them (N-30.6
leaves open which; DESIGN CHOICE, log entry 17). -/
def passOne (n addr : Nat) (table : LabelTable) : List Line → Except AsmStop LabelTable
  | [] => .ok table
  | l :: rest =>
    match classify l with
    | .label text =>
      match tokens text with
      | [name] => passOne (n + 1) addr ((name, addr) :: table) rest
      | _ => .error (.unspecified n)
    | cls => passOne (n + 1) (if takesSlot cls then addr + 1 else addr) table rest

/-- A `;` anywhere in a token: part of the token, or the start of a comment? The source says neither for an
instruction line (N-30.3). -/
def mayHoldComment (token : Line) : Bool := token.contains ';'

/-- An instruction line's operand token, empty where there is none; no answer where the source gives the line
no meaning (R66), a token that may hold a trailing comment among them (N-30.3; DESIGN CHOICE, log entry 10).
Whitespace after the mnemonic with no token behind it, and whitespace after the token, add no token (DESIGN
CHOICE, log entry 18). -/
def operandToken (rest : Line) : Option Line :=
  match rest with
  | [] => some []
  | c :: _ =>
    if isSpace c then
      match tokens rest with
      | [] => some []
      | [token] => if mayHoldComment token then none else some token
      | _ => none
    else none

/-- The word of an instruction line: `val mod 2^12` in the operand field (R66). -/
def instructionWord (m : Mnemonic) (val : Int) : Word := encode (instrOf m (BitVec.ofInt 12 val))

/-- The word that line `n` of the given class emits, if any (R61, R64 to R68). Text after the character of a `$`
line is not read (DEDUCED, log entry 16). -/
def emitted (table : LabelTable) (n : Nat) : LineClass → Except AsmStop (Option Word)
  | .ignored => .ok none
  | .comment => .ok none
  | .label _ => .ok none
  | .malformed => .ok none
  | .numeric rest => .ok (some (BitVec.ofInt 16 (parseInt rest)))
  | .character [] => .error (.unspecified n)
  | .character (c :: _) =>
    if c.toNat ≤ 0x7F then .ok (some (BitVec.ofNat 16 c.toNat)) else .error (.unspecified n)
  | .instruction m rest =>
    match operandToken rest with
    | none => .error (.unspecified n)
    | some (':' :: name) =>
      match lookupLabel table name with
      | some addr => .ok (some (instructionWord m addr))
      | none => .error (.unresolvedLabel n)
    | some token => .ok (some (instructionWord m (parseInt token)))

/-- Pass 2 from line number `n` on: the words in source-line order (R69). -/
def passTwo (table : LabelTable) (n : Nat) : List Line → Except AsmStop (List Word)
  | [] => .ok []
  | l :: rest =>
    match emitted table n (classify l), passTwo table (n + 1) rest with
    | .error stop, _ => .error stop
    | .ok _, .error stop => .error stop
    | .ok none, .ok words => .ok words
    | .ok (some w), .ok words => .ok (w :: words)

/-- The reference assembler (R60 to R72). -/
def assemble (source : List Line) : Except AsmStop (List Word) :=
  match passOne 0 0 [] source with
  | .error stop => .error stop
  | .ok table => passTwo table 0 source

/-- The lines the assembler reports as malformed (R68). -/
def malformedLines (source : List Line) : List Nat :=
  (List.range source.length).filter fun n =>
    match source[n]? with
    | some l => decide (classify l = .malformed)
    | none => false

/-! ### The transcriber -/

/-- A decimal literal whose octal reading, if it has one, is the same (R71, D21). -/
def plainDecimal (l : Line) : Bool :=
  decide (l ≠ []) && l.all (fun c => decide (48 ≤ c.toNat ∧ c.toNat ≤ 57))
    && decide (unsignedLiteral l = digitsValue 10 0 l)

/-- A literal a transcriber accepts: plain decimal, a `-` allowed, or `0x` hex (R71, D21; DESIGN CHOICE, log
entry 15), of any magnitude (N-30.7 leaves out-of-range values open; DESIGN CHOICE, log entry 19). -/
def plainLiteral : Line → Bool
  | '0' :: 'x' :: digits => decide (digits ≠ []) && digits.all fun c => (digitValue c).isSome
  | '-' :: digits => plainDecimal digits
  | l => plainDecimal l

/-- A line a transcriber accepts (R61, R62, R65, R66, R68, R71; D15, D21, D22, D24). It accepts any label name
`passOne` does (DESIGN CHOICE, log entry 17), and whitespace at the end of an instruction line (DESIGN CHOICE,
log entry 18). -/
def transcribable (l : Line) : Bool :=
  match classify l with
  | .ignored => l.all isSpace
  | .comment => true
  | .label text => decide ((tokens text).length = 1)
  | .numeric rest => plainLiteral rest
  | .character [] => false
  | .character (c :: _) => decide (c.toNat ≤ 0x7F)
  | .instruction _ rest =>
    match operandToken rest with
    | none => false
    | some [] => true
    | some (':' :: _) => true
    | some token => plainLiteral token
  | .malformed => false

/-- The transcriber: the assembler's words, for a source with nothing in it that two readings could differ on;
otherwise it refuses (R68, D15, D21, D22, D24). -/
def transcribe (source : List Line) : Option (List Word) :=
  if source.all transcribable then (assemble source).toOption else none

end Sys2Proof.Assembler
end

