-- ==== Sys2Proof/Machine/ImageFile.lean ====
section
/-!
DEFINITION. The machine-code file: the assembler's output and the core's input (R58, R59). A file is its list
of lines; opening and reading it is outside the core (R10).
-/

namespace Sys2Proof.ImageFile

/-- The lowercase hexadecimal digit of a value below 16. -/
def hexDigit (n : Nat) : Char := if n < 10 then Char.ofNat (48 + n) else Char.ofNat (87 + n)

/-- The value of a lowercase hexadecimal digit; no other character is one (R58). -/
def hexDigitValue (c : Char) : Option Nat :=
  if 48 ≤ c.toNat ∧ c.toNat ≤ 57 then some (c.toNat - 48)
  else if 97 ≤ c.toNat ∧ c.toNat ≤ 102 then some (c.toNat - 87)
  else none

/-- A word's line: 4 digits, bits 15:12 first (R58). -/
def renderWord (w : Word) : List Char :=
  [hexDigit (w.toNat / 4096 % 16), hexDigit (w.toNat / 256 % 16), hexDigit (w.toNat / 16 % 16), hexDigit (w.toNat % 16)]

/-- A line's word: exactly 4 lowercase digits, or the loader refuses (R58, R59). -/
def parseWord (line : List Char) : Option Word :=
  match line.map hexDigitValue with
  | [some a, some b, some c, some d] => some (BitVec.ofNat 16 (a * 4096 + b * 256 + c * 16 + d))
  | _ => none

/-- The file of an image: one line a word, in ascending address order (R58). -/
def renderImage (image : List Word) : List (List Char) := image.map renderWord

/-- The image of a file; a file that breaks the format anywhere is refused whole (R59). -/
def parseImage : List (List Char) → Option (List Word)
  | [] => some []
  | line :: rest =>
    match parseWord line, parseImage rest with
    | some w, some image => some (w :: image)
    | _, _ => none

end Sys2Proof.ImageFile
end

