-- ==== Sys2Proof/Machine/Launch.lean ====
section
/-!
DEFINITION. Launch: reset with the inputs the launch supplies (spec/70_reset_and_hazards.md R123 to R128).
-/

namespace Sys2Proof.Machine

/-- The inputs of a launch (R27, R121, R128). -/
structure LaunchInputs where
  image : List Word
  stepLimit : Nat
  jumpFetchFolded : Bool
  inQ : List Byte
  inClosed : Bool
  hostPlan : List HostTurn
  deriving DecidableEq, Repr

/-- The state a launch starts in: the reset state with storage sized to the image and filled from it, and the
launch's inputs (R124, R125). -/
def launch (l : LaunchInputs) : State :=
  { State.reset with
    mem := Memory.ofImage l.image
    stepLimit := l.stepLimit
    jumpFetchFolded := l.jumpFetchFolded
    inQ := l.inQ
    inClosed := l.inClosed
    hostPlan := l.hostPlan }

end Sys2Proof.Machine
end

