-- ==== Sys2Proof/Safety.lean ====
section
/-!
DEFINITION. What claims are stated in: the invariant of every run, the moments at which the core moves, and the
tally of a run.
-/

namespace Sys2Proof.Machine

/-- The next step is the core's, and it attempts a transition: the schedule gives it no other turn, the run is
not over, and the limit is not reached (R73, R74). -/
def State.coreMoves (s : State) : Prop := s.hostPlan = [] ∧ s.status = .running ∧ limitReached s = false

/-- The next turn is the core's, scheduled or because no turn is left, and the core makes it in `s0`, whose
schedule no longer holds it (R73). -/
def State.CoreTurn (s s0 : State) : Prop :=
  (s.hostPlan = [] ∧ s0 = s) ∨ ∃ rest, s.hostPlan = .core :: rest ∧ s0 = { s with hostPlan := rest }

/-- The address and the cause of a fault record fit together (R103, R108). -/
def FaultRecord.fits (r : FaultRecord) (s : State) : Prop :=
  match r.cause with
  | .accessViolation => r.addr ≠ Config.ioAddr ∧ s.mem.size ≤ r.addr
  | .ioExhausted => r.addr = Config.ioAddr ∧ s.inQ = [] ∧ s.inClosed = true
  | .illegalOpcode => r.addr + 1 = s.pc ∧ wordWellFormed s.ir = false ∧ s.phase = .execute
  | .accOverflow => r.addr ≤ 4095 ∧ s.phase = .execute

/-- What holds of every state a launch can reach. -/
structure State.Inv (s : State) : Prop where
  /-- Storage is in its canonical form. -/
  mem_wf : s.mem.wf = true
  /-- PC is bounded (R14). -/
  pc_bounded : s.pc ≤ max 4096 s.mem.size
  /-- In EXECUTE, PC is one more than the address the word came from (R13). -/
  pc_pos : s.phase = .execute → 1 ≤ s.pc
  /-- FAULT holds a record exactly when STATUS is FAULTED (R20). -/
  fault_iff : s.fault ≠ none ↔ s.status = .faulted
  /-- The record is one the causes allow (R108). -/
  fault_fits : ∀ r, s.fault = some r → r.fits s
  /-- HALTED is set only by STP, which leaves PHASE and IR as they are (R81, R100). -/
  halted_by_stp : s.status = .halted → s.phase = .execute ∧ ∃ x, decode s.ir = .ok (.stp x)
  /-- LIMIT_REACHED is set only when a limit is reached (R74). -/
  limit_status : s.status = .limitReached → limitReached s = true
  /-- No transition is made past the limit (R74). -/
  limit_kept : s.stepLimit ≠ 0 → s.stepCount ≤ s.stepLimit

/-! ### Reads, in the spec's own terms (R29, R31, R35) -/

/-- A read at `a` gives `w` and leaves `s'`: the cell's word, nothing changed, or the next console character,
consumed. -/
def State.Reads (s : State) (a : Nat) (w : Word) (s' : State) : Prop :=
  (a ≠ 0xFFF ∧ a < s.mem.size ∧ w = s.mem.get a ∧ s' = s) ∨
  (a = 0xFFF ∧ ∃ c rest, s.inQ = c :: rest ∧ w = c.setWidth 16 ∧ s' = { s with inQ := rest })

/-- A read at `a` faults with the record `r`. -/
def State.ReadFaults (s : State) (a : Nat) (r : FaultRecord) : Prop :=
  (a ≠ 0xFFF ∧ s.mem.size ≤ a ∧ r = { cause := .accessViolation, addr := a }) ∨
  (a = 0xFFF ∧ s.inQ = [] ∧ s.inClosed = true ∧ r = { cause := .ioExhausted, addr := 0xFFF })

/-- A read at `a` waits for the host. -/
def State.ReadHolds (s : State) (a : Nat) : Prop := a = 0xFFF ∧ s.inQ = [] ∧ s.inClosed = false

/-- The instruction in IR is a jump that is taken in this state (R92). -/
def State.takesJump (s : State) : Bool :=
  match decode s.ir with
  | .ok (.jmp _) => true
  | .ok (.jge _) => jgeTaken s.acc
  | .ok (.jne _) => jneTaken s.acc
  | _ => false

/-- The address that the core's transition reads, if it reads one: PC in FETCH; in EXECUTE the operand of LDA, ADD
and SUB, and the target of a folded taken jump (R76, R85, R88, R89, R93). -/
def State.readAddr (s : State) : Option Nat :=
  match s.phase with
  | .fetch => some s.pc
  | .execute =>
    match decode s.ir with
    | .ok (.lda a) => some a.toNat
    | .ok (.add a) => some a.toNat
    | .ok (.sub a) => some a.toNat
    | _ => if s.takesJump ∧ s.jumpFetchFolded then some (s.ir.toNat % 4096) else none

/-- The core's transition waits for the host (R84). -/
def State.TransitionHolds (s : State) : Prop := ∃ a, s.readAddr = some a ∧ s.ReadHolds a

/-- The state after the fault `r` of a transition that committed nothing in `s` (R80). -/
def State.faultedWith (s : State) (r : FaultRecord) : State := { s with status := .faulted, fault := some r }

/-- Instruction `i` in `s` is a taken jump to `t`: what it does with the fold and without (R93). -/
def JumpsTo (i : Instr) (t : Nat) (s : State) : Prop :=
  (s.jumpFetchFolded = true →
    (∀ w s', s.Reads t w s' →
      exec i s = .next { s' with ir := w, pc := t + 1, phase := .execute, stepCount := s.stepCount + 1 }) ∧
    (∀ r, s.ReadFaults t r → exec i s = .next (s.faultedWith r)) ∧
    (s.ReadHolds t → exec i s = .next s)) ∧
  (s.jumpFetchFolded = false →
    exec i s = .next { s with pc := t, phase := .fetch, stepCount := s.stepCount + 1 })

/-! ### Frames -/

/-- Storage has the same size and reads the same at every address. -/
def Memory.Same (m m' : Memory) : Prop := m'.size = m.size ∧ ∀ a, m'.get a = m.get a

/-- What no instruction changes: the launch inputs, the input's closing and the host's schedule. -/
def State.SameInputs (s t : State) : Prop :=
  t.mem.size = s.mem.size ∧ t.stepLimit = s.stepLimit ∧ t.jumpFetchFolded = s.jumpFetchFolded
    ∧ t.inClosed = s.inClosed ∧ t.hostPlan = s.hostPlan

/-- What an instruction other than STP does to STATUS, FAULT and STEP_COUNT: nothing but a step counted, or a
hold, which changes nothing at all, or a fault, which counts no step and leaves PHASE (R75, R80, R84). -/
def State.SameController (s t : State) : Prop :=
  (t.status = s.status ∧ t.fault = s.fault ∧ (t.stepCount = s.stepCount + 1 ∨ t = s)) ∨
  (t.status = .faulted ∧ (∃ r, t.fault = some r) ∧ t.stepCount = s.stepCount ∧ t.phase = s.phase)

/-! ### Runs -/

/-- A run's tally: instructions executed and taken jumps (R133). -/
structure Tally where
  instrs : Nat
  jumps : Nat
  deriving DecidableEq, Repr

/-- The tally after the step from `s` to `t`: a transition that completed in EXECUTE executed one instruction
(R75, R133). -/
def Tally.after (k : Tally) (s t : State) : Tally :=
  if s.phase = .execute ∧ t.stepCount = s.stepCount + 1 then
    { instrs := k.instrs + 1, jumps := k.jumps + (if s.takesJump then 1 else 0) }
  else k

/-- The tally and STEP_COUNT agree: two transitions for each instruction executed, one more for a FETCH whose
EXECUTE is still to come, and with the fold one less for each taken jump; HALTED stands in EXECUTE (R133). -/
structure Tally.Fits (k : Tally) (s : State) : Prop where
  count : s.stepCount + (if s.jumpFetchFolded then k.jumps else 0) =
    2 * k.instrs + (if s.phase = .execute ∧ s.status ≠ .halted then 1 else 0)
  halted : s.status = .halted → s.phase = .execute

/-- `n` steps, with the tally of what they executed; no answer once a step answers no next state. -/
def tallyRun : Nat → State → Tally → Option (State × Tally)
  | 0, s, k => some (s, k)
  | n + 1, s, k =>
    match step s with
    | .next t => tallyRun n t (k.after s t)
    | _ => none

end Sys2Proof.Machine
end

