-- ==== Sys2Proof/Certificates/Slice0/Obligations.lean ====
section
/-!
DEFINITION. The statements about the core, taken from the spec's numbered rules. They are proved elsewhere.
-/

open Sys2Proof Sys2Proof.Machine

/-! ### Encoding (spec/30_encoding.md) -/

/-- Vectors V-D2 to V-D12: words written out from the spec's encodings. -/
def Obligations.WrittenOutWordsDecode : Prop :=
  decode 0x0FFF#16 = .ok (.lda 0xFFF) ∧ decode 0x1FFF#16 = .ok (.sto 0xFFF) ∧ decode 0x2ABC#16 = .ok (.add 0xABC) ∧
  decode 0x3001#16 = .ok (.sub 0x001) ∧ decode 0x4000#16 = .ok (.jmp 0x000) ∧ decode 0x5ABC#16 = .ok (.jge 0xABC) ∧
  decode 0x6FFF#16 = .ok (.jne 0xFFF) ∧ decode 0x7123#16 = .ok (.stp 0x123) ∧
  decode 0x8000#16 = .error (.illegalOpcode 8) ∧ decode 0xFFFF#16 = .error (.illegalOpcode 15)

/-- R52: a word is the instruction in row k when `w AND 0xF000 = match_k`, and its operand is bits 11:0 (R50);
no other word is an instruction. -/
def Obligations.OpcodeMapIsMatchAndMask : Prop :=
  ∀ w : Word,
    let row := w &&& 0xF000#16
    let a : Operand := w.extractLsb' 0 12
    (row = 0x0000#16 → decode w = .ok (.lda a)) ∧ (row = 0x1000#16 → decode w = .ok (.sto a)) ∧
    (row = 0x2000#16 → decode w = .ok (.add a)) ∧ (row = 0x3000#16 → decode w = .ok (.sub a)) ∧
    (row = 0x4000#16 → decode w = .ok (.jmp a)) ∧ (row = 0x5000#16 → decode w = .ok (.jge a)) ∧
    (row = 0x6000#16 → decode w = .ok (.jne a)) ∧ (row = 0x7000#16 → decode w = .ok (.stp a)) ∧
    (∀ i, decode w = .ok i → row.toNat ≤ 0x7000)

/-- R53, R55: every word below 0x8000 is an instruction, and every other word is rejected by its opcode. -/
def Obligations.WordsFrom8000AreNoInstruction : Prop :=
  ∀ w : Word, (w.toNat < 0x8000 → ∃ i, decode w = .ok i) ∧
    (0x8000 ≤ w.toNat → decode w = .error (.illegalOpcode (w.toNat / 4096)))

/-- Decode and encode agree, for every instruction and every operand. -/
def Obligations.DecodeOfEncodeIsTheInstruction : Prop := ∀ i : Instr, decode (encode i) = .ok i

/-- No bit of an instruction word is dropped: the instruction read from a word encodes to that word, STP's
ignored bits included. -/
def Obligations.EncodeOfDecodeIsTheWord : Prop := ∀ (w : Word) (i : Instr), decode w = .ok i → encode i = w

/-- A console character fetched as an instruction is always an LDA (an inference the spec marks as its own). -/
def Obligations.FetchedCharacterIsAnLda : Prop :=
  ∀ c : Byte, ∃ a : Operand, decode (wordOfChar c) = .ok (.lda a) ∧ a.toNat = c.toNat

/-! ### Launch and reset (spec/70_reset_and_hazards.md) -/

/-- R124, R125: the state a launch starts in, for every image and every input of the launch. -/
def Obligations.LaunchStartsInTheResetState : Prop :=
  ∀ l : LaunchInputs,
    (launch l).pc = 0 ∧ (launch l).acc.toInt = 0 ∧ (launch l).ir = 0 ∧ (launch l).phase = .fetch ∧
    (launch l).status = .running ∧ (launch l).fault = none ∧ (launch l).stepCount = 0 ∧ (launch l).outQ = [] ∧
    (launch l).inQ = l.inQ ∧ (launch l).inClosed = l.inClosed ∧ (launch l).mem.size = l.image.length ∧
    ∀ (n : Nat) (h : n < l.image.length), (launch l).mem.get n = l.image[n]

/-- The first transition is the fetch of word 0 (an inference the spec marks as its own at its entry-point
rule); the empty image faults at address 0. -/
def Obligations.FirstTransitionFetchesWordZero : Prop :=
  ∀ l : LaunchInputs, l.hostPlan = [] →
    (∀ w rest, l.image = w :: rest →
      ∃ t, step (launch l) = .next t ∧
        t = { launch l with ir := w, pc := 1, phase := .execute, stepCount := 1 }) ∧
    (l.image = [] →
      ∃ t, step (launch l) = .next t ∧
        t = (launch l).faultedWith { cause := .accessViolation, addr := 0 })

/-- The reset state meets the invariant. It is the launch of the empty image; that reset holds the empty image,
an open empty stream and an idle host is the model's choice (log entries 2, 3 and 5). -/
def Obligations.ResetMeetsTheInvariant : Prop :=
  State.reset.Inv ∧ State.reset = launch
    { image := [], stepLimit := 0, jumpFetchFolded := true, inQ := [], inClosed := false, hostPlan := [] }

/-- Every launch meets the invariant. -/
def Obligations.EveryLaunchMeetsTheInvariant : Prop := ∀ l : LaunchInputs, (launch l).Inv

/-- Every step keeps the invariant: storage's form, the PC bound, the fault record and STATUS in step with each
other and with their causes, the step limit kept. -/
def Obligations.EveryStepKeepsTheInvariant : Prop :=
  ∀ s t : State, s.Inv → step s = .next t → t.Inv

/-! ### The controller (spec/40_controller.md) -/

/-- R76: FETCH reads the word at PC into IR, advances PC and goes to EXECUTE; it faults or holds as the read
does. -/
def Obligations.FetchTransition : Prop :=
  ∀ s : State, s.coreMoves → s.phase = .fetch →
    (∀ w s', s.Reads s.pc w s' →
      step s = .next { s' with ir := w, pc := s.pc + 1, phase := .execute, stepCount := s.stepCount + 1 }) ∧
    (∀ r, s.ReadFaults s.pc r → step s = .next (s.faultedWith r)) ∧
    (s.ReadHolds s.pc → step s = .next s)

/-- A step in EXECUTE is exec of the instruction IR decodes to; and a word in storage at PC that decodes to an
instruction is run by the fetch of it and the step after that. -/
def Obligations.StepRunsTheDecodedInstruction : Prop :=
  (∀ (s : State) (i : Instr), s.coreMoves → s.phase = .execute → decode s.ir = .ok i → step s = exec i s) ∧
  (∀ (s : State) (i : Instr), s.coreMoves → s.stepLimit = 0 → s.phase = .fetch → s.pc ≠ 0xFFF → s.pc < s.mem.size →
    decode (s.mem.get s.pc) = .ok i →
    ∃ t, step s = .next t ∧ t.pc = s.pc + 1 ∧ t.mem = s.mem ∧ t.acc = s.acc ∧ step t = exec i t)

/-- R78: an EXECUTE with an opcode of 8 or more faults with the address of the word, and commits nothing. The
premise `1 ≤ PC` is the invariant's (In EXECUTE, PC is one more than the word's address). -/
def Obligations.IllegalOpcodeFaults : Prop :=
  ∀ s : State, s.coreMoves → s.phase = .execute → 1 ≤ s.pc → 8 ≤ s.ir.toNat / 4096 →
    ∃ addr, addr + 1 = s.pc ∧ step s = .next (s.faultedWith { cause := .illegalOpcode, addr := addr })

/-- R74: on a core's turn, scheduled or with no turn left, no step once the run is over, the limit before the
transition, then the transition of the phase, made in the state whose schedule no longer holds the turn. -/
def Obligations.CoreStepOrder : Prop :=
  ∀ s s0 : State, s.CoreTurn s0 →
    (s.status ≠ .running → step s = .fault (.runOver s.status)) ∧
    (s.status = .running → s.stepLimit ≠ 0 → s.stepLimit ≤ s.stepCount →
      step s = .next { s0 with status := .limitReached }) ∧
    (s.status = .running → (s.stepLimit = 0 ∨ s.stepCount < s.stepLimit) → s.phase = .fetch →
      step s = fetchTransition s0) ∧
    (s.status = .running → (s.stepLimit = 0 ∨ s.stepCount < s.stepLimit) → s.phase = .execute →
      step s = executeTransition s0)

/-- While STATUS is RUNNING every step answers a next state; the only stop of the machine is a core's turn
after the run's end. -/
def Obligations.OnlyTheEndOfTheRunStopsTheMachine : Prop :=
  ∀ s : State, (∃ t, step s = .next t) ∨
    (s.status ≠ .running ∧ step s = .fault (.runOver s.status) ∧
      (s.hostPlan = [] ∨ ∃ rest, s.hostPlan = .core :: rest))

/-- R75: STEP_COUNT grows by exactly 1 for a completed transition, and not at all for a held attempt, a fault or
the limit test. The attempt is held exactly where the address its transition reads holds. -/
def Obligations.StepCountCountsCompletedTransitions : Prop :=
  ∀ s t : State, s.hostPlan = [] → s.status = .running → step s = .next t →
    (limitReached s = true → t = { s with status := .limitReached }) ∧
    (limitReached s = false → s.TransitionHolds → t = s) ∧
    (limitReached s = false → ¬ s.TransitionHolds →
      (t.stepCount = s.stepCount + 1 ∧ (t.status = .running ∨ t.status = .halted) ∧ t.fault = s.fault) ∨
      (t.stepCount = s.stepCount ∧ t.status = .faulted ∧ ∃ r, t.fault = some r))

/-- R80, R112: a fault commits nothing but STATUS and FAULT; an ADD or SUB at 0xFFF that overflows, and nothing
else, keeps its character consumed; and the core makes no further step. -/
def Obligations.FaultsArePrecise : Prop :=
  ∀ s t : State, s.hostPlan = [] → s.status = .running → step s = .next t → t.status = .faulted →
    (∃ r, (r ≠ { cause := .accOverflow, addr := 0xFFF } ∧ t = s.faultedWith r) ∨
      (r = { cause := .accOverflow, addr := 0xFFF } ∧ s.phase = .execute ∧
        (decode s.ir = .ok (.add 0xFFF) ∨ decode s.ir = .ok (.sub 0xFFF)) ∧
        ∃ c rest, s.inQ = c :: rest ∧ t = { s with inQ := rest }.faultedWith r)) ∧
    step t = .fault (.runOver .faulted)

/-- R108: what the fault record holds, cause by cause. Of an illegal opcode with PC = 0, which no run reaches and
the spec gives no address for (log entry 13), nothing is said of the address. -/
def Obligations.FaultRecordNamesTheCause : Prop :=
  ∀ s t : State, s.hostPlan = [] → s.status = .running → step s = .next t → t.status = .faulted →
    ∃ r, t.fault = some r ∧
      ((r.cause = .accessViolation ∧ r.addr ≠ 0xFFF ∧ s.mem.size ≤ r.addr ∧
          ((s.phase = .fetch ∧ r.addr = s.pc) ∨ (s.phase = .execute ∧ r.addr = s.ir.toNat % 4096))) ∨
       (r.cause = .ioExhausted ∧ r.addr = 0xFFF ∧ s.inQ = [] ∧ s.inClosed = true) ∨
       (r.cause = .illegalOpcode ∧ s.phase = .execute ∧ 8 ≤ s.ir.toNat / 4096 ∧
          (1 ≤ s.pc → r.addr + 1 = s.pc) ∧ t.ir = s.ir) ∨
       (r.cause = .accOverflow ∧ s.phase = .execute ∧ (s.ir.toNat / 4096 = 2 ∨ s.ir.toNat / 4096 = 3) ∧
          r.addr = s.ir.toNat % 4096)) ∧
      t.pc = s.pc ∧ t.acc = s.acc ∧ t.ir = s.ir

/-- R19, R82: once STATUS is not RUNNING nothing changes but what the host does to its own streams. -/
def Obligations.EndedRunIsFrozen : Prop :=
  ∀ s t : State, s.status ≠ .running → step s = .next t →
    t = { s with inQ := t.inQ, inClosed := t.inClosed, hostPlan := t.hostPlan }

/-! ### Memory and the console (spec/20_memory.md) -/

/-- R33: an access at 0xFFF neither reads nor writes storage, whatever its size and contents. -/
def Obligations.ConsoleAddressNeverTouchesStorage : Prop :=
  ∀ (s : State) (m : Memory) (v : Int),
    (∀ w t, memRead s 0xFFF = .value w t →
      t.mem = s.mem ∧ memRead (s.setMem m) 0xFFF = .value w (t.setMem m)) ∧
    (memRead s 0xFFF = .hold → memRead (s.setMem m) 0xFFF = .hold) ∧
    (∀ cause addr, memRead s 0xFFF = .raise cause addr → memRead (s.setMem m) 0xFFF = .raise cause addr) ∧
    (∃ t, memWrite s 0xFFF v = .done t ∧ t.mem = s.mem ∧ memWrite (s.setMem m) 0xFFF v = .done (t.setMem m))

/-- R34: the bound is strict, for reads, writes and fetches: address MEM_SIZE faults like any beyond it. -/
def Obligations.BoundsCheckIsStrict : Prop :=
  ∀ (s : State) (a : Nat) (v : Int), a ≠ 0xFFF → s.mem.size ≤ a →
    memRead s a = .raise .accessViolation a ∧ memWrite s a v = .raise .accessViolation a ∧
    fetchAt s a = .next (s.faultedWith { cause := .accessViolation, addr := a })

/-- A store to the next instruction's word is what the very next FETCH reads (an inference the spec marks as its
own). -/
def Obligations.StoreIsSeenByTheVeryNextFetch : Prop :=
  ∀ (s : State) (a : Operand), s.mem.wf = true → s.coreMoves → s.stepLimit = 0 → s.phase = .execute →
    decode s.ir = .ok (.sto a) → a.toNat = s.pc → s.pc ≠ 0xFFF → s.pc < s.mem.size →
    ∃ t u, step s = .next t ∧ step t = .next u ∧ u.ir = BitVec.ofInt 16 s.acc.toInt ∧ u.pc = s.pc + 1

/-- Storing ACC and loading it back gives `ACC mod 2^16` (an inference the spec marks as its own). -/
def Obligations.StoreThenLoadGivesAccModWord : Prop :=
  ∀ (s : State) (a : Operand), s.mem.wf = true → a.toNat ≠ 0xFFF → a.toNat < s.mem.size →
    ∃ t u, exec (.sto a) s = .next t ∧ exec (.lda a) t = .next u ∧ u.acc.toInt = s.acc.toInt % 65536

/-! ### The instructions (spec/41_load_store.md to 44_system.md)

Each states the instruction's encoding, where it completes and with what, and where it faults or holds. -/

/-- R85: LDA loads the word read, unsigned; it faults or holds as the read does. -/
def Obligations.LdaLoadsTheAccumulator : Prop :=
  ∀ (s : State) (a : Operand),
    decode (0x0000#16 ||| a.setWidth 16) = .ok (.lda a) ∧
    (∀ w s', s.Reads a.toNat w s' →
      ∃ t, exec (.lda a) s = .next t ∧ t.acc.toInt = w.toNat ∧
        t = { s' with acc := t.acc, phase := .fetch, stepCount := s.stepCount + 1 }) ∧
    (∀ r, s.ReadFaults a.toNat r → exec (.lda a) s = .next (s.faultedWith r)) ∧
    (s.ReadHolds a.toNat → exec (.lda a) s = .next s)

/-- R86: STO stores `ACC mod 2^16` in the cell, or emits `ACC mod 2^8` at 0xFFF; out of range it faults and
stores and emits nothing. Reading the stored cell needs storage's canonical form. -/
def Obligations.StoStoresTheAccumulator : Prop :=
  ∀ (s : State) (a : Operand),
    decode (0x1000#16 ||| a.setWidth 16) = .ok (.sto a) ∧
    (a.toNat ≠ 0xFFF → a.toNat < s.mem.size →
      ∃ t, exec (.sto a) s = .next t ∧ t.mem.size = s.mem.size ∧
        (s.mem.wf = true → ((t.mem.get a.toNat).toNat : Int) = s.acc.toInt % 65536) ∧
        (∀ b, b ≠ a.toNat → t.mem.get b = s.mem.get b) ∧
        t = { s with mem := t.mem, phase := .fetch, stepCount := s.stepCount + 1 }) ∧
    (a.toNat = 0xFFF →
      ∃ t c, exec (.sto a) s = .next t ∧ (c.toNat : Int) = s.acc.toInt % 256 ∧
        t = { s with outQ := s.outQ ++ [c], phase := .fetch, stepCount := s.stepCount + 1 }) ∧
    (a.toNat ≠ 0xFFF → s.mem.size ≤ a.toNat →
      exec (.sto a) s = .next (s.faultedWith { cause := .accessViolation, addr := a.toNat }))

/-- R88: ADD gives the exact sum, or ACC_OVERFLOW above ACC_MAX with the read's character consumed; it
faults or holds as the read does, and an access fault comes before any overflow. -/
def Obligations.AddIsExactOrOverflows : Prop :=
  ∀ (s : State) (a : Operand),
    decode (0x2000#16 ||| a.setWidth 16) = .ok (.add a) ∧
    (∀ w s', s.Reads a.toNat w s' →
      (s.acc.toInt + w.toNat ≤ 2 ^ 31 - 1 →
        ∃ t, exec (.add a) s = .next t ∧ t.acc.toInt = s.acc.toInt + w.toNat ∧
          t = { s' with acc := t.acc, phase := .fetch, stepCount := s.stepCount + 1 }) ∧
      (2 ^ 31 - 1 < s.acc.toInt + w.toNat →
        exec (.add a) s = .next (s'.faultedWith { cause := .accOverflow, addr := a.toNat }))) ∧
    (∀ r, s.ReadFaults a.toNat r → exec (.add a) s = .next (s.faultedWith r)) ∧
    (s.ReadHolds a.toNat → exec (.add a) s = .next s)

/-- R89: SUB gives the exact difference, or ACC_OVERFLOW below ACC_MIN with the read's character consumed;
it faults or holds as the read does. -/
def Obligations.SubIsExactOrOverflows : Prop :=
  ∀ (s : State) (a : Operand),
    decode (0x3000#16 ||| a.setWidth 16) = .ok (.sub a) ∧
    (∀ w s', s.Reads a.toNat w s' →
      (-2 ^ 31 ≤ s.acc.toInt - w.toNat →
        ∃ t, exec (.sub a) s = .next t ∧ t.acc.toInt = s.acc.toInt - w.toNat ∧
          t = { s' with acc := t.acc, phase := .fetch, stepCount := s.stepCount + 1 }) ∧
      (s.acc.toInt - w.toNat < -2 ^ 31 →
        exec (.sub a) s = .next (s'.faultedWith { cause := .accOverflow, addr := a.toNat }))) ∧
    (∀ r, s.ReadFaults a.toNat r → exec (.sub a) s = .next (s.faultedWith r)) ∧
    (s.ReadHolds a.toNat → exec (.sub a) s = .next s)

/-- R94: JMP always takes its jump, folded or not. -/
def Obligations.JmpTakesItsJump : Prop :=
  ∀ (s : State) (t : Operand),
    decode (0x4000#16 ||| t.setWidth 16) = .ok (.jmp t) ∧ JumpsTo (.jmp t) t.toNat s

/-- R95: JGE takes its jump exactly when ACC is not negative; otherwise only PHASE and the count change. -/
def Obligations.JgeJumpsUnlessNegative : Prop :=
  ∀ (s : State) (t : Operand),
    decode (0x5000#16 ||| t.setWidth 16) = .ok (.jge t) ∧
    (0 ≤ s.acc.toInt → JumpsTo (.jge t) t.toNat s) ∧
    (s.acc.toInt < 0 → exec (.jge t) s = .next { s with phase := .fetch, stepCount := s.stepCount + 1 })

/-- R96: JNE takes its jump exactly when ACC is not zero; otherwise only PHASE and the count change. -/
def Obligations.JneJumpsUnlessZero : Prop :=
  ∀ (s : State) (t : Operand),
    decode (0x6000#16 ||| t.setWidth 16) = .ok (.jne t) ∧
    (s.acc.toInt ≠ 0 → JumpsTo (.jne t) t.toNat s) ∧
    (s.acc.toInt = 0 → exec (.jne t) s = .next { s with phase := .fetch, stepCount := s.stepCount + 1 })

/-- R100: STP halts, whatever its operand bits, and the halt is permanent. -/
def Obligations.StpHaltsForGood : Prop :=
  (∀ (s : State) (x : Operand),
    exec (.stp x) s = .next { s with status := .halted, stepCount := s.stepCount + 1 }) ∧
  (∀ s : State, s.coreMoves → s.phase = .execute → 0x7000 ≤ s.ir.toNat → s.ir.toNat ≤ 0x7FFF →
    ∃ t, step s = .next t ∧ t = { s with status := .halted, stepCount := s.stepCount + 1 } ∧
      step t = .fault (.runOver .halted))

/-! ### Frames -/

/-- What LDA, ADD and SUB leave unchanged: PC, IR, all of storage, the output, the inputs of the launch; the
console input too, unless the operand is 0xFFF, which takes at most its head. -/
def Obligations.LoadAndArithmeticFrame : Prop :=
  ∀ (s t : State) (i : Instr) (a : Operand), (i = .lda a ∨ i = .add a ∨ i = .sub a) → exec i s = .next t →
    t.pc = s.pc ∧ t.ir = s.ir ∧ s.mem.Same t.mem ∧ t.outQ = s.outQ ∧ s.SameInputs t ∧ s.SameController t ∧
    (a.toNat ≠ 0xFFF → t.inQ = s.inQ) ∧ (t.inQ = s.inQ ∨ ∃ c, s.inQ = c :: t.inQ)

/-- What STO leaves unchanged: the registers, the console input, the inputs of the launch, every cell but the
one its operand addresses, and the output unless the operand is 0xFFF, which leaves all of storage. -/
def Obligations.StoFrame : Prop :=
  ∀ (s t : State) (a : Operand), exec (.sto a) s = .next t →
    t.pc = s.pc ∧ t.ir = s.ir ∧ t.acc = s.acc ∧ t.inQ = s.inQ ∧ s.SameInputs t ∧ s.SameController t ∧
    (∀ addr, directAddr a = addr → ∀ b, b ≠ addr → t.mem.get b = s.mem.get b) ∧
    (directAddr a ≠ 0xFFF → t.outQ = s.outQ) ∧ (directAddr a = 0xFFF → s.mem.Same t.mem)

/-- What the jumps leave unchanged: ACC, all of storage, the output, the inputs of the launch; the console input
too, unless the target is 0xFFF, which takes at most its head; IR too, unless the jump is folded. -/
def Obligations.JumpFrame : Prop :=
  ∀ (s t : State) (i : Instr) (a : Operand), (i = .jmp a ∨ i = .jge a ∨ i = .jne a) → exec i s = .next t →
    t.acc = s.acc ∧ s.mem.Same t.mem ∧ t.outQ = s.outQ ∧ s.SameInputs t ∧ s.SameController t ∧
    (a.toNat ≠ 0xFFF → t.inQ = s.inQ) ∧ (t.inQ = s.inQ ∨ ∃ c, s.inQ = c :: t.inQ) ∧
    (s.jumpFetchFolded = false → t.ir = s.ir ∧ t.inQ = s.inQ)

/-! ### Whole-machine rules -/

/-- R15, R26: no step but an EXECUTE of LDA, ADD or SUB changes ACC. -/
def Obligations.OnlyLdaAddSubWriteAcc : Prop :=
  ∀ s t : State, step s = .next t → t.acc ≠ s.acc →
    s.phase = .execute ∧ ∃ a, decode s.ir = .ok (.lda a) ∨ decode s.ir = .ok (.add a) ∨ decode s.ir = .ok (.sub a)

/-- Only SUB can make ACC negative (an inference the spec marks as its own). -/
def Obligations.OnlySubMakesAccNegative : Prop :=
  ∀ s t : State, step s = .next t → 0 ≤ s.acc.toInt → t.acc.toInt < 0 →
    s.phase = .execute ∧ ∃ a, decode s.ir = .ok (.sub a)

/-- R13: PC changes only by a FETCH or a taken jump, and to these values. -/
def Obligations.PcChangesOnlyByFetchAndTakenJump : Prop :=
  ∀ s t : State, step s = .next t → t.pc ≠ s.pc →
    (s.phase = .fetch ∧ t.pc = s.pc + 1) ∨
    (s.phase = .execute ∧ s.takesJump = true ∧ s.jumpFetchFolded = true ∧ t.pc = s.ir.toNat % 4096 + 1) ∨
    (s.phase = .execute ∧ s.takesJump = true ∧ s.jumpFetchFolded = false ∧ t.pc = s.ir.toNat % 4096)

/-- R16: IR changes only by a fetch: a FETCH, or a folded taken jump; and it is then the word read. -/
def Obligations.IrChangesOnlyByFetch : Prop :=
  ∀ s t : State, step s = .next t → t.ir ≠ s.ir →
    ∃ a, s.Reads a t.ir { s with inQ := t.inQ } ∧
      ((s.phase = .fetch ∧ a = s.pc) ∨
       (s.phase = .execute ∧ s.takesJump = true ∧ s.jumpFetchFolded = true ∧ a = s.ir.toNat % 4096))

/-- R22, R24: only a STO to storage changes storage, and only its cell; only a STO to 0xFFF changes the output,
by appending one character. -/
def Obligations.OnlyStoWritesStorageAndOutput : Prop :=
  ∀ s t : State, step s = .next t →
    (t.mem ≠ s.mem → s.phase = .execute ∧ ∃ a : Operand, decode s.ir = .ok (.sto a) ∧ a.toNat ≠ 0xFFF ∧
      a.toNat < s.mem.size ∧ ∀ b, b ≠ a.toNat → t.mem.get b = s.mem.get b) ∧
    (t.outQ ≠ s.outQ → s.phase = .execute ∧ decode s.ir = .ok (.sto 0xFFF) ∧
      t.outQ = s.outQ ++ [BitVec.ofInt 8 s.acc.toInt])

/-- R23: a core's step takes at most the head of IN_Q and never closes the input; only the host's moves append
and close, and no step opens a closed input. -/
def Obligations.InputIsTakenFromItsHead : Prop :=
  ∀ s t : State, step s = .next t →
    (s.hostPlan = [] ∨ (∃ rest, s.hostPlan = .core :: rest) →
      (t.inQ = s.inQ ∨ ∃ c, s.inQ = c :: t.inQ) ∧ t.inClosed = s.inClosed) ∧
    (s.inClosed = true → t.inClosed = true ∧ (t.inQ = s.inQ ∨ ∃ c, s.inQ = c :: t.inQ))

/-- R27: MEM_SIZE, STEP_LIMIT and JUMP_FETCH_FOLDED are fixed: no step changes them. -/
def Obligations.LaunchInputsNeverChange : Prop :=
  ∀ s t : State, step s = .next t →
    t.mem.size = s.mem.size ∧ t.stepLimit = s.stepLimit ∧ t.jumpFetchFolded = s.jumpFetchFolded

/-- The host's moves: an append while the stream is open puts the character at the tail of IN_Q, a close sets
IN_CLOSED; neither touches anything else of the machine. An append after the close is no move; that the model
then goes on unchanged is its choice (log entry 5). -/
def Obligations.HostMovesTouchOnlyTheInput : Prop :=
  ∀ (s : State) (c : Byte) (rest : List HostTurn),
    (s.hostPlan = .append c :: rest → s.inClosed = false →
      step s = .next { s with hostPlan := rest, inQ := s.inQ ++ [c] }) ∧
    (s.hostPlan = .append c :: rest → s.inClosed = true → step s = .next { s with hostPlan := rest }) ∧
    (s.hostPlan = .close :: rest → step s = .next { s with hostPlan := rest, inClosed := true })

/-- R84, R35: a FETCH held on console input changes nothing, however often it is attempted; the host's append
lifts the hold, and its close turns it into IO_EXHAUSTED. -/
def Obligations.HoldIsLiftedOnlyByTheHost : Prop :=
  ∀ (s : State) (c : Byte), s.coreMoves → s.phase = .fetch → s.ReadHolds s.pc →
    step s = .next s ∧ (∀ n, core.run n s = .next s) ∧
    (∃ t u, step { s with hostPlan := [.append c] } = .next t ∧ step t = .next u ∧
      u = { s with ir := c.setWidth 16, pc := 0x1000, phase := .execute, stepCount := s.stepCount + 1 }) ∧
    (∃ t u, step { s with hostPlan := [.close] } = .next t ∧ step t = .next u ∧
      u = { s with inClosed := true }.faultedWith { cause := .ioExhausted, addr := 0xFFF })

/-- The two settings of JUMP_FETCH_FOLDED run the same words (an inference the spec marks as its own): a folded
taken jump is the unfolded one and the FETCH after it, one step shorter; where the target's fetch faults they
differ in PC, PHASE and the count only; where it holds, the folded one holds in EXECUTE at the jump and the
unfolded one in FETCH at the target; and every other transition is the same under both. -/
def Obligations.FoldedAndUnfoldedJumpsAgree : Prop :=
  ∀ s t : State, s.coreMoves → s.stepLimit = 0 → s.jumpFetchFolded = true → step s = .next t →
    (¬ (s.phase = .execute ∧ s.takesJump = true) →
      step { s with jumpFetchFolded := false } = .next { t with jumpFetchFolded := false }) ∧
    (s.phase = .execute ∧ s.takesJump = true →
      ∃ u v, step { s with jumpFetchFolded := false } = .next u ∧ step u = .next v ∧
        u = { s with jumpFetchFolded := false, pc := s.ir.toNat % 4096, phase := .fetch,
                     stepCount := s.stepCount + 1 } ∧
        (s.ReadHolds (s.ir.toNat % 4096) → t = s ∧ v = u) ∧
        (t.stepCount = s.stepCount + 1 → t.status = .running ∧
          v = { t with jumpFetchFolded := false, stepCount := t.stepCount + 1 }) ∧
        (t.status = .faulted →
          v = { t with jumpFetchFolded := false, stepCount := t.stepCount + 1, phase := .fetch,
                       pc := s.ir.toNat % 4096 }))

/-- The step count of a run that halts (an inference the spec marks as its own): for any image, inputs and
host, `STEP_COUNT = 2*I - J` with the fold and `2*I` without, I the instructions executed, J the taken jumps. -/
def Obligations.StepCountOfAHaltedRun : Prop :=
  ∀ (l : LaunchInputs) (n : Nat) (t : State) (k : Tally),
    tallyRun n (launch l) { instrs := 0, jumps := 0 } = some (t, k) → t.status = .halted →
    (l.jumpFetchFolded = true → t.stepCount + k.jumps = 2 * k.instrs) ∧
    (l.jumpFetchFolded = false → t.stepCount = 2 * k.instrs)

/-- A word added and then subtracted, with no overflow, leaves ACC as it was (an inference the spec marks as its
own). -/
def Obligations.AddThenSubRestoresAcc : Prop :=
  ∀ (s : State) (a : Operand), a.toNat ≠ 0xFFF → a.toNat < s.mem.size →
    s.acc.toInt + (s.mem.get a.toNat).toNat ≤ 2 ^ 31 - 1 →
    ∃ t u, exec (.add a) s = .next t ∧ exec (.sub a) t = .next u ∧
      u = { s with phase := .fetch, stepCount := s.stepCount + 2 }

/-! ### The machine-code file and the assembler (spec/30_encoding.md §3, §4) -/

/-- R58: the file of an image reads back as the image, and no other file does. -/
def Obligations.ImageFileReadsBack : Prop :=
  ∀ (image : List Word) (file : List (List Char)),
    ImageFile.parseImage file = some image ↔ file = ImageFile.renderImage image

/-- R58: a word's line is its four lowercase hexadecimal digits, most significant first. -/
def Obligations.ImageLineSpellsTheWord : Prop :=
  ∀ w : Word, ∃ a b c d : Nat, a < 16 ∧ b < 16 ∧ c < 16 ∧ d < 16 ∧
    w.toNat = 4096 * a + 256 * b + 16 * c + d ∧
    let digits := ['0', '1', '2', '3', '4', '5', '6', '7', '8', '9', 'a', 'b', 'c', 'd', 'e', 'f']
    (ImageFile.renderWord w).map some = [digits[a]?, digits[b]?, digits[c]?, digits[d]?]

/-- R64, R66: a numeric line emits its literal modulo 2^16; an instruction line emits its opcode in bits 15:12
and below it, modulo 2^12, the literal of its operand token, the address its label resolves to, or 0 where it has
no token. A token without whitespace or `;`, after a space, is the operand token. -/
def Obligations.EmittedWordsAreMasked : Prop :=
  (∀ (table : Assembler.LabelTable) (n : Nat) (rest : Assembler.Line),
    ∃ w : Word, Assembler.emitted table n (.numeric rest) = .ok (some w) ∧
      (w.toNat : Int) = Assembler.parseInt rest % 65536) ∧
  (∀ (table : Assembler.LabelTable) (n : Nat) (m : Assembler.Mnemonic) (rest : Assembler.Line),
    let emits (val : Int) : Prop := ∃ w : Word, Assembler.emitted table n (.instruction m rest) = .ok (some w) ∧
      (w.toNat : Int) = (Assembler.instrOf m 0).opcodeNumber * 4096 + val % 4096
    (∀ token, Assembler.operandToken rest = some token → token.head? ≠ some ':' →
      emits (Assembler.parseInt token)) ∧
    (∀ name addr, Assembler.operandToken rest = some (':' :: name) →
      Assembler.lookupLabel table name = some addr → emits addr) ∧
    (rest = [] → emits 0) ∧
    (∀ token : Assembler.Line, token ≠ [] → (∀ c ∈ token, Assembler.isSpace c = false ∧ c ≠ ';') →
      rest = ' ' :: token → Assembler.operandToken rest = some token))

/-- R72: a source with no malformed line that assembles emits as many words as it has lines that are not blank,
comment or label-only. -/
def Obligations.EmittedWordCount : Prop :=
  ∀ (source : List Assembler.Line) (words : List Word),
    (∀ l ∈ source, Assembler.classify l ≠ .malformed) → Assembler.assemble source = .ok words →
    words.length = (source.filter fun l => Assembler.takesSlot (Assembler.classify l)).length

/-- R62, R63: a label names the address of the next line that takes a slot, and its last definition wins. -/
def Obligations.LastLabelDefinitionWins : Prop :=
  ∀ (before after : List Assembler.Line) (l name text : Assembler.Line) (table : Assembler.LabelTable),
    Assembler.classify l = .label text → Assembler.tokens text = [name] →
    Assembler.passOne 0 0 [] (before ++ l :: after) = .ok table →
    (∀ l' ∈ after, ∀ text', Assembler.classify l' = .label text' → Assembler.tokens text' ≠ [name]) →
    Assembler.lookupLabel table name =
      some (before.filter fun l' => Assembler.takesSlot (Assembler.classify l')).length

/-- R67: a source with a label reference that the table cannot resolve gives no image. -/
def Obligations.UnresolvedLabelGivesNoImage : Prop :=
  ∀ (source : List Assembler.Line) (l rest name : Assembler.Line) (m : Assembler.Mnemonic)
    (table : Assembler.LabelTable) (words : List Word),
    l ∈ source → Assembler.classify l = .instruction m rest → Assembler.operandToken rest = some (':' :: name) →
    Assembler.passOne 0 0 [] source = .ok table → Assembler.lookupLabel table name = none →
    Assembler.assemble source ≠ .ok words

/-- R68: the transcriber's words are the assembler's, and it refuses every source with a malformed line. -/
def Obligations.TranscriberRefusesMalformedLines : Prop :=
  ∀ (source : List Assembler.Line) (words : List Word),
    Assembler.transcribe source = some words →
    Assembler.assemble source = .ok words ∧ ∀ l ∈ source, Assembler.classify l ≠ .malformed

/-! ### The schedule and the tally -/

/-- R73: a scheduled turn of the core does what the core's step does when the host is idle, and leaves the rest of
the schedule (whose form is the model's, log entry 5): the host's later moves do not show in it. -/
def Obligations.ScheduledCoreTurnIsTheIdleStep : Prop :=
  ∀ (s : State) (rest : List HostTurn), s.hostPlan = .core :: rest →
    (∀ t, step { s with hostPlan := [] } = .next t → step s = .next { t with hostPlan := rest }) ∧
    (∀ f, step { s with hostPlan := [] } = .fault f → step s = .fault f)

/-- Every step, of the core or of the host, keeps STEP_COUNT and the tally of the run in step (from R75 and R132;
its end at a halt, R133, is an inference the spec marks as its own). -/
def Obligations.EveryStepKeepsTheTally : Prop :=
  ∀ (s t : State) (k : Tally), k.Fits s → step s = .next t → (k.after s t).Fits t
end

