-- ==== Sys2Proof/Laws/Memory.lean ====
section
/-!
SUPPORT. Storage: what a write leaves in each cell, and that every storage operation keeps the canonical form.
-/

namespace Sys2Proof.Machine

@[simp] theorem Memory.put_size (m : Memory) (a : Nat) (v : Word) : (m.put a v).size = m.size := rfl

theorem cellsGet_consCell_of_ne {a b : Nat} (h : a ≠ b) (v : Word) (rest : List WordCell) :
    cellsGet (consCell a v rest) b = cellsGet rest b := by
  unfold consCell
  split <;> simp [cellsGet, h]

theorem cellsGet_cellsPut_of_ne {a b : Nat} (h : a ≠ b) (v : Word) (cells : List WordCell) :
    cellsGet (cellsPut cells a v) b = cellsGet cells b := by
  induction cells with
  | nil => simp [cellsPut, cellsGet_consCell_of_ne h]
  | cons cell rest ih =>
    obtain ⟨c, w⟩ := cell
    by_cases hlt : c < a
    · simp [cellsPut, hlt, cellsGet, ih]
    · by_cases heq : c = a
      · subst heq
        simp [cellsPut, cellsGet_consCell_of_ne h, cellsGet, h]
      · simp [cellsPut, hlt, heq, cellsGet_consCell_of_ne h]

theorem cellsWf_cons {size lo a : Nat} {w : Word} {rest : List WordCell} :
    cellsWf size lo ((a, w) :: rest) = true ↔
      lo ≤ a ∧ a < size ∧ w ≠ Config.unlistedWord ∧ cellsWf size (a + 1) rest = true := by
  simp [cellsWf, and_assoc]

/-- The form holds from any lower address and for any larger size. -/
theorem cellsWf_mono {size size' lo lo' : Nat} {cells : List WordCell} (hlo : lo' ≤ lo) (hsize : size ≤ size')
    (h : cellsWf size lo cells = true) : cellsWf size' lo' cells = true := by
  induction cells generalizing lo lo' with
  | nil => rfl
  | cons cell rest ih =>
    obtain ⟨a, w⟩ := cell
    rw [cellsWf_cons] at h ⊢
    exact ⟨hlo.trans h.1, by omega, h.2.2.1, ih le_rfl h.2.2.2⟩

/-- Below the first listed address every cell reads as unlisted. -/
theorem cellsGet_below {size lo a : Nat} {cells : List WordCell} (h : cellsWf size lo cells = true) (ha : a < lo) :
    cellsGet cells a = Config.unlistedWord := by
  induction cells generalizing lo with
  | nil => rfl
  | cons cell rest ih =>
    obtain ⟨b, w⟩ := cell
    rw [cellsWf_cons] at h
    have hne : b ≠ a := by omega
    simp [cellsGet, hne, ih h.2.2.2 (by omega)]

theorem cellsGet_consCell_same {size a : Nat} {v : Word} {rest : List WordCell}
    (h : cellsWf size (a + 1) rest = true) : cellsGet (consCell a v rest) a = v := by
  unfold consCell
  split
  · rename_i hv
    rw [cellsGet_below h (Nat.lt_succ_self a), hv]
  · simp [cellsGet]

theorem cellsGet_cellsPut_same {size lo a : Nat} {v : Word} {cells : List WordCell}
    (h : cellsWf size lo cells = true) : cellsGet (cellsPut cells a v) a = v := by
  induction cells generalizing lo with
  | nil => exact cellsGet_consCell_same (size := size) rfl
  | cons cell rest ih =>
    obtain ⟨b, w⟩ := cell
    have h' := cellsWf_cons.mp h
    by_cases hlt : b < a
    · have hne : b ≠ a := by omega
      simp [cellsPut, hlt, cellsGet, hne, ih h'.2.2.2]
    · by_cases heq : b = a
      · subst heq
        simpa [cellsPut] using cellsGet_consCell_same h'.2.2.2
      · simpa [cellsPut, hlt, heq] using
          cellsGet_consCell_same (cellsWf_cons.mpr ⟨by omega, h'.2.1, h'.2.2.1, h'.2.2.2⟩)

theorem cellsWf_consCell {size lo a : Nat} {v : Word} {rest : List WordCell} (hlo : lo ≤ a) (ha : a < size)
    (h : cellsWf size (a + 1) rest = true) : cellsWf size lo (consCell a v rest) = true := by
  unfold consCell
  split
  · exact cellsWf_mono (by omega) le_rfl h
  · rename_i hv
    exact cellsWf_cons.mpr ⟨hlo, ha, hv, h⟩

theorem cellsWf_cellsPut {size lo a : Nat} {v : Word} {cells : List WordCell} (hlo : lo ≤ a) (ha : a < size)
    (h : cellsWf size lo cells = true) : cellsWf size lo (cellsPut cells a v) = true := by
  induction cells generalizing lo with
  | nil => exact cellsWf_consCell hlo ha rfl
  | cons cell rest ih =>
    obtain ⟨b, w⟩ := cell
    have h' := cellsWf_cons.mp h
    by_cases hlt : b < a
    · simpa [cellsPut, hlt] using cellsWf_cons.mpr ⟨h'.1, h'.2.1, h'.2.2.1, ih hlt h'.2.2.2⟩
    · by_cases heq : b = a
      · subst heq
        simpa [cellsPut] using cellsWf_consCell hlo ha h'.2.2.2
      · simpa [cellsPut, hlt, heq] using
          cellsWf_consCell hlo ha (cellsWf_cons.mpr ⟨by omega, h'.2.1, h'.2.2.1, h'.2.2.2⟩)

/-- A store keeps the canonical form. -/
theorem Memory.put_wf {m : Memory} {a : Nat} {v : Word} (ha : a < m.size) (h : m.wf = true) :
    (m.put a v).wf = true := cellsWf_cellsPut (Nat.zero_le a) ha h

theorem Memory.get_put_same {m : Memory} {a : Nat} {v : Word} (h : m.wf = true) : (m.put a v).get a = v :=
  cellsGet_cellsPut_same h

theorem Memory.get_put_of_ne {m : Memory} {a b : Nat} {v : Word} (h : a ≠ b) : (m.put a v).get b = m.get b :=
  cellsGet_cellsPut_of_ne h v m.cells

theorem imageCells_wf {size lo : Nat} {image : List Word} (h : lo + image.length ≤ size) :
    cellsWf size lo (imageCells lo image) = true := by
  induction image generalizing lo with
  | nil => rfl
  | cons w rest ih =>
    simp only [List.length_cons] at h
    exact cellsWf_consCell le_rfl (by omega) (ih (by omega))

/-- Loading an image gives the canonical form. -/
theorem Memory.ofImage_wf (image : List Word) : (Memory.ofImage image).wf = true :=
  imageCells_wf (by simp [Memory.ofImage])

/-- Placing a word gives the canonical form. -/
theorem placeWord_wf {m : Memory} {a : Nat} {w : Word} (h : m.wf = true) : (placeWord m a w).wf = true := by
  unfold placeWord
  split
  · exact h
  · refine Memory.put_wf ?_ (cellsWf_mono le_rfl ?_ h)
    · simp
    · simp

/-- Reset's storage is in its canonical form. -/
theorem reset_mem_wf : State.reset.mem.wf = true := rfl

end Sys2Proof.Machine
end

