-- ==== Sys2Proof/Laws/State.lean ====
section
/-!
SUPPORT. What each one-field update leaves in each field.
-/

namespace Sys2Proof.Machine

variable (s : State)

@[simp] theorem State.setPc_pc (n : Nat) : (s.setPc n).pc = n := rfl
@[simp] theorem State.setPc_acc (n : Nat) : (s.setPc n).acc = s.acc := rfl
@[simp] theorem State.setPc_ir (n : Nat) : (s.setPc n).ir = s.ir := rfl
@[simp] theorem State.setPc_phase (n : Nat) : (s.setPc n).phase = s.phase := rfl
@[simp] theorem State.setPc_status (n : Nat) : (s.setPc n).status = s.status := rfl
@[simp] theorem State.setPc_fault (n : Nat) : (s.setPc n).fault = s.fault := rfl
@[simp] theorem State.setPc_stepCount (n : Nat) : (s.setPc n).stepCount = s.stepCount := rfl
@[simp] theorem State.setPc_mem (n : Nat) : (s.setPc n).mem = s.mem := rfl
@[simp] theorem State.setPc_inQ (n : Nat) : (s.setPc n).inQ = s.inQ := rfl
@[simp] theorem State.setPc_inClosed (n : Nat) : (s.setPc n).inClosed = s.inClosed := rfl
@[simp] theorem State.setPc_outQ (n : Nat) : (s.setPc n).outQ = s.outQ := rfl
@[simp] theorem State.setPc_stepLimit (n : Nat) : (s.setPc n).stepLimit = s.stepLimit := rfl
@[simp] theorem State.setPc_jumpFetchFolded (n : Nat) : (s.setPc n).jumpFetchFolded = s.jumpFetchFolded := rfl
@[simp] theorem State.setPc_hostPlan (n : Nat) : (s.setPc n).hostPlan = s.hostPlan := rfl

@[simp] theorem State.setAcc_pc (v : Acc) : (s.setAcc v).pc = s.pc := rfl
@[simp] theorem State.setAcc_acc (v : Acc) : (s.setAcc v).acc = v := rfl
@[simp] theorem State.setAcc_ir (v : Acc) : (s.setAcc v).ir = s.ir := rfl
@[simp] theorem State.setAcc_phase (v : Acc) : (s.setAcc v).phase = s.phase := rfl
@[simp] theorem State.setAcc_status (v : Acc) : (s.setAcc v).status = s.status := rfl
@[simp] theorem State.setAcc_fault (v : Acc) : (s.setAcc v).fault = s.fault := rfl
@[simp] theorem State.setAcc_stepCount (v : Acc) : (s.setAcc v).stepCount = s.stepCount := rfl
@[simp] theorem State.setAcc_mem (v : Acc) : (s.setAcc v).mem = s.mem := rfl
@[simp] theorem State.setAcc_inQ (v : Acc) : (s.setAcc v).inQ = s.inQ := rfl
@[simp] theorem State.setAcc_inClosed (v : Acc) : (s.setAcc v).inClosed = s.inClosed := rfl
@[simp] theorem State.setAcc_outQ (v : Acc) : (s.setAcc v).outQ = s.outQ := rfl
@[simp] theorem State.setAcc_stepLimit (v : Acc) : (s.setAcc v).stepLimit = s.stepLimit := rfl
@[simp] theorem State.setAcc_jumpFetchFolded (v : Acc) : (s.setAcc v).jumpFetchFolded = s.jumpFetchFolded := rfl
@[simp] theorem State.setAcc_hostPlan (v : Acc) : (s.setAcc v).hostPlan = s.hostPlan := rfl

@[simp] theorem State.setIr_pc (w : Word) : (s.setIr w).pc = s.pc := rfl
@[simp] theorem State.setIr_acc (w : Word) : (s.setIr w).acc = s.acc := rfl
@[simp] theorem State.setIr_ir (w : Word) : (s.setIr w).ir = w := rfl
@[simp] theorem State.setIr_phase (w : Word) : (s.setIr w).phase = s.phase := rfl
@[simp] theorem State.setIr_status (w : Word) : (s.setIr w).status = s.status := rfl
@[simp] theorem State.setIr_fault (w : Word) : (s.setIr w).fault = s.fault := rfl
@[simp] theorem State.setIr_stepCount (w : Word) : (s.setIr w).stepCount = s.stepCount := rfl
@[simp] theorem State.setIr_mem (w : Word) : (s.setIr w).mem = s.mem := rfl
@[simp] theorem State.setIr_inQ (w : Word) : (s.setIr w).inQ = s.inQ := rfl
@[simp] theorem State.setIr_inClosed (w : Word) : (s.setIr w).inClosed = s.inClosed := rfl
@[simp] theorem State.setIr_outQ (w : Word) : (s.setIr w).outQ = s.outQ := rfl
@[simp] theorem State.setIr_stepLimit (w : Word) : (s.setIr w).stepLimit = s.stepLimit := rfl
@[simp] theorem State.setIr_jumpFetchFolded (w : Word) : (s.setIr w).jumpFetchFolded = s.jumpFetchFolded := rfl
@[simp] theorem State.setIr_hostPlan (w : Word) : (s.setIr w).hostPlan = s.hostPlan := rfl

@[simp] theorem State.setPhase_pc (p : Phase) : (s.setPhase p).pc = s.pc := rfl
@[simp] theorem State.setPhase_acc (p : Phase) : (s.setPhase p).acc = s.acc := rfl
@[simp] theorem State.setPhase_ir (p : Phase) : (s.setPhase p).ir = s.ir := rfl
@[simp] theorem State.setPhase_phase (p : Phase) : (s.setPhase p).phase = p := rfl
@[simp] theorem State.setPhase_status (p : Phase) : (s.setPhase p).status = s.status := rfl
@[simp] theorem State.setPhase_fault (p : Phase) : (s.setPhase p).fault = s.fault := rfl
@[simp] theorem State.setPhase_stepCount (p : Phase) : (s.setPhase p).stepCount = s.stepCount := rfl
@[simp] theorem State.setPhase_mem (p : Phase) : (s.setPhase p).mem = s.mem := rfl
@[simp] theorem State.setPhase_inQ (p : Phase) : (s.setPhase p).inQ = s.inQ := rfl
@[simp] theorem State.setPhase_inClosed (p : Phase) : (s.setPhase p).inClosed = s.inClosed := rfl
@[simp] theorem State.setPhase_outQ (p : Phase) : (s.setPhase p).outQ = s.outQ := rfl
@[simp] theorem State.setPhase_stepLimit (p : Phase) : (s.setPhase p).stepLimit = s.stepLimit := rfl
@[simp] theorem State.setPhase_jumpFetchFolded (p : Phase) : (s.setPhase p).jumpFetchFolded = s.jumpFetchFolded := rfl
@[simp] theorem State.setPhase_hostPlan (p : Phase) : (s.setPhase p).hostPlan = s.hostPlan := rfl

@[simp] theorem State.setStatus_pc (st : Status) : (s.setStatus st).pc = s.pc := rfl
@[simp] theorem State.setStatus_acc (st : Status) : (s.setStatus st).acc = s.acc := rfl
@[simp] theorem State.setStatus_ir (st : Status) : (s.setStatus st).ir = s.ir := rfl
@[simp] theorem State.setStatus_phase (st : Status) : (s.setStatus st).phase = s.phase := rfl
@[simp] theorem State.setStatus_status (st : Status) : (s.setStatus st).status = st := rfl
@[simp] theorem State.setStatus_fault (st : Status) : (s.setStatus st).fault = s.fault := rfl
@[simp] theorem State.setStatus_stepCount (st : Status) : (s.setStatus st).stepCount = s.stepCount := rfl
@[simp] theorem State.setStatus_mem (st : Status) : (s.setStatus st).mem = s.mem := rfl
@[simp] theorem State.setStatus_inQ (st : Status) : (s.setStatus st).inQ = s.inQ := rfl
@[simp] theorem State.setStatus_inClosed (st : Status) : (s.setStatus st).inClosed = s.inClosed := rfl
@[simp] theorem State.setStatus_outQ (st : Status) : (s.setStatus st).outQ = s.outQ := rfl
@[simp] theorem State.setStatus_stepLimit (st : Status) : (s.setStatus st).stepLimit = s.stepLimit := rfl
@[simp] theorem State.setStatus_jumpFetchFolded (st : Status) : (s.setStatus st).jumpFetchFolded = s.jumpFetchFolded := rfl
@[simp] theorem State.setStatus_hostPlan (st : Status) : (s.setStatus st).hostPlan = s.hostPlan := rfl

@[simp] theorem State.setFault_pc (r : FaultRecord) : (s.setFault r).pc = s.pc := rfl
@[simp] theorem State.setFault_acc (r : FaultRecord) : (s.setFault r).acc = s.acc := rfl
@[simp] theorem State.setFault_ir (r : FaultRecord) : (s.setFault r).ir = s.ir := rfl
@[simp] theorem State.setFault_phase (r : FaultRecord) : (s.setFault r).phase = s.phase := rfl
@[simp] theorem State.setFault_status (r : FaultRecord) : (s.setFault r).status = s.status := rfl
@[simp] theorem State.setFault_fault (r : FaultRecord) : (s.setFault r).fault = some r := rfl
@[simp] theorem State.setFault_stepCount (r : FaultRecord) : (s.setFault r).stepCount = s.stepCount := rfl
@[simp] theorem State.setFault_mem (r : FaultRecord) : (s.setFault r).mem = s.mem := rfl
@[simp] theorem State.setFault_inQ (r : FaultRecord) : (s.setFault r).inQ = s.inQ := rfl
@[simp] theorem State.setFault_inClosed (r : FaultRecord) : (s.setFault r).inClosed = s.inClosed := rfl
@[simp] theorem State.setFault_outQ (r : FaultRecord) : (s.setFault r).outQ = s.outQ := rfl
@[simp] theorem State.setFault_stepLimit (r : FaultRecord) : (s.setFault r).stepLimit = s.stepLimit := rfl
@[simp] theorem State.setFault_jumpFetchFolded (r : FaultRecord) : (s.setFault r).jumpFetchFolded = s.jumpFetchFolded := rfl
@[simp] theorem State.setFault_hostPlan (r : FaultRecord) : (s.setFault r).hostPlan = s.hostPlan := rfl

@[simp] theorem State.tick_pc : s.tick.pc = s.pc := rfl
@[simp] theorem State.tick_acc : s.tick.acc = s.acc := rfl
@[simp] theorem State.tick_ir : s.tick.ir = s.ir := rfl
@[simp] theorem State.tick_phase : s.tick.phase = s.phase := rfl
@[simp] theorem State.tick_status : s.tick.status = s.status := rfl
@[simp] theorem State.tick_fault : s.tick.fault = s.fault := rfl
@[simp] theorem State.tick_stepCount : s.tick.stepCount = s.stepCount + 1 := rfl
@[simp] theorem State.tick_mem : s.tick.mem = s.mem := rfl
@[simp] theorem State.tick_inQ : s.tick.inQ = s.inQ := rfl
@[simp] theorem State.tick_inClosed : s.tick.inClosed = s.inClosed := rfl
@[simp] theorem State.tick_outQ : s.tick.outQ = s.outQ := rfl
@[simp] theorem State.tick_stepLimit : s.tick.stepLimit = s.stepLimit := rfl
@[simp] theorem State.tick_jumpFetchFolded : s.tick.jumpFetchFolded = s.jumpFetchFolded := rfl
@[simp] theorem State.tick_hostPlan : s.tick.hostPlan = s.hostPlan := rfl

@[simp] theorem State.setMem_pc (m : Memory) : (s.setMem m).pc = s.pc := rfl
@[simp] theorem State.setMem_acc (m : Memory) : (s.setMem m).acc = s.acc := rfl
@[simp] theorem State.setMem_ir (m : Memory) : (s.setMem m).ir = s.ir := rfl
@[simp] theorem State.setMem_phase (m : Memory) : (s.setMem m).phase = s.phase := rfl
@[simp] theorem State.setMem_status (m : Memory) : (s.setMem m).status = s.status := rfl
@[simp] theorem State.setMem_fault (m : Memory) : (s.setMem m).fault = s.fault := rfl
@[simp] theorem State.setMem_stepCount (m : Memory) : (s.setMem m).stepCount = s.stepCount := rfl
@[simp] theorem State.setMem_mem (m : Memory) : (s.setMem m).mem = m := rfl
@[simp] theorem State.setMem_inQ (m : Memory) : (s.setMem m).inQ = s.inQ := rfl
@[simp] theorem State.setMem_inClosed (m : Memory) : (s.setMem m).inClosed = s.inClosed := rfl
@[simp] theorem State.setMem_outQ (m : Memory) : (s.setMem m).outQ = s.outQ := rfl
@[simp] theorem State.setMem_stepLimit (m : Memory) : (s.setMem m).stepLimit = s.stepLimit := rfl
@[simp] theorem State.setMem_jumpFetchFolded (m : Memory) : (s.setMem m).jumpFetchFolded = s.jumpFetchFolded := rfl
@[simp] theorem State.setMem_hostPlan (m : Memory) : (s.setMem m).hostPlan = s.hostPlan := rfl

@[simp] theorem State.setInQ_pc (q : List Byte) : (s.setInQ q).pc = s.pc := rfl
@[simp] theorem State.setInQ_acc (q : List Byte) : (s.setInQ q).acc = s.acc := rfl
@[simp] theorem State.setInQ_ir (q : List Byte) : (s.setInQ q).ir = s.ir := rfl
@[simp] theorem State.setInQ_phase (q : List Byte) : (s.setInQ q).phase = s.phase := rfl
@[simp] theorem State.setInQ_status (q : List Byte) : (s.setInQ q).status = s.status := rfl
@[simp] theorem State.setInQ_fault (q : List Byte) : (s.setInQ q).fault = s.fault := rfl
@[simp] theorem State.setInQ_stepCount (q : List Byte) : (s.setInQ q).stepCount = s.stepCount := rfl
@[simp] theorem State.setInQ_mem (q : List Byte) : (s.setInQ q).mem = s.mem := rfl
@[simp] theorem State.setInQ_inQ (q : List Byte) : (s.setInQ q).inQ = q := rfl
@[simp] theorem State.setInQ_inClosed (q : List Byte) : (s.setInQ q).inClosed = s.inClosed := rfl
@[simp] theorem State.setInQ_outQ (q : List Byte) : (s.setInQ q).outQ = s.outQ := rfl
@[simp] theorem State.setInQ_stepLimit (q : List Byte) : (s.setInQ q).stepLimit = s.stepLimit := rfl
@[simp] theorem State.setInQ_jumpFetchFolded (q : List Byte) : (s.setInQ q).jumpFetchFolded = s.jumpFetchFolded := rfl
@[simp] theorem State.setInQ_hostPlan (q : List Byte) : (s.setInQ q).hostPlan = s.hostPlan := rfl

@[simp] theorem State.closeInput_pc : s.closeInput.pc = s.pc := rfl
@[simp] theorem State.closeInput_acc : s.closeInput.acc = s.acc := rfl
@[simp] theorem State.closeInput_ir : s.closeInput.ir = s.ir := rfl
@[simp] theorem State.closeInput_phase : s.closeInput.phase = s.phase := rfl
@[simp] theorem State.closeInput_status : s.closeInput.status = s.status := rfl
@[simp] theorem State.closeInput_fault : s.closeInput.fault = s.fault := rfl
@[simp] theorem State.closeInput_stepCount : s.closeInput.stepCount = s.stepCount := rfl
@[simp] theorem State.closeInput_mem : s.closeInput.mem = s.mem := rfl
@[simp] theorem State.closeInput_inQ : s.closeInput.inQ = s.inQ := rfl
@[simp] theorem State.closeInput_inClosed : s.closeInput.inClosed = true := rfl
@[simp] theorem State.closeInput_outQ : s.closeInput.outQ = s.outQ := rfl
@[simp] theorem State.closeInput_stepLimit : s.closeInput.stepLimit = s.stepLimit := rfl
@[simp] theorem State.closeInput_jumpFetchFolded : s.closeInput.jumpFetchFolded = s.jumpFetchFolded := rfl
@[simp] theorem State.closeInput_hostPlan : s.closeInput.hostPlan = s.hostPlan := rfl

@[simp] theorem State.emit_pc (c : Byte) : (s.emit c).pc = s.pc := rfl
@[simp] theorem State.emit_acc (c : Byte) : (s.emit c).acc = s.acc := rfl
@[simp] theorem State.emit_ir (c : Byte) : (s.emit c).ir = s.ir := rfl
@[simp] theorem State.emit_phase (c : Byte) : (s.emit c).phase = s.phase := rfl
@[simp] theorem State.emit_status (c : Byte) : (s.emit c).status = s.status := rfl
@[simp] theorem State.emit_fault (c : Byte) : (s.emit c).fault = s.fault := rfl
@[simp] theorem State.emit_stepCount (c : Byte) : (s.emit c).stepCount = s.stepCount := rfl
@[simp] theorem State.emit_mem (c : Byte) : (s.emit c).mem = s.mem := rfl
@[simp] theorem State.emit_inQ (c : Byte) : (s.emit c).inQ = s.inQ := rfl
@[simp] theorem State.emit_inClosed (c : Byte) : (s.emit c).inClosed = s.inClosed := rfl
@[simp] theorem State.emit_outQ (c : Byte) : (s.emit c).outQ = s.outQ ++ [c] := rfl
@[simp] theorem State.emit_stepLimit (c : Byte) : (s.emit c).stepLimit = s.stepLimit := rfl
@[simp] theorem State.emit_jumpFetchFolded (c : Byte) : (s.emit c).jumpFetchFolded = s.jumpFetchFolded := rfl
@[simp] theorem State.emit_hostPlan (c : Byte) : (s.emit c).hostPlan = s.hostPlan := rfl

@[simp] theorem State.setHostPlan_pc (turns : List HostTurn) : (s.setHostPlan turns).pc = s.pc := rfl
@[simp] theorem State.setHostPlan_acc (turns : List HostTurn) : (s.setHostPlan turns).acc = s.acc := rfl
@[simp] theorem State.setHostPlan_ir (turns : List HostTurn) : (s.setHostPlan turns).ir = s.ir := rfl
@[simp] theorem State.setHostPlan_phase (turns : List HostTurn) : (s.setHostPlan turns).phase = s.phase := rfl
@[simp] theorem State.setHostPlan_status (turns : List HostTurn) : (s.setHostPlan turns).status = s.status := rfl
@[simp] theorem State.setHostPlan_fault (turns : List HostTurn) : (s.setHostPlan turns).fault = s.fault := rfl
@[simp] theorem State.setHostPlan_stepCount (turns : List HostTurn) : (s.setHostPlan turns).stepCount = s.stepCount := rfl
@[simp] theorem State.setHostPlan_mem (turns : List HostTurn) : (s.setHostPlan turns).mem = s.mem := rfl
@[simp] theorem State.setHostPlan_inQ (turns : List HostTurn) : (s.setHostPlan turns).inQ = s.inQ := rfl
@[simp] theorem State.setHostPlan_inClosed (turns : List HostTurn) : (s.setHostPlan turns).inClosed = s.inClosed := rfl
@[simp] theorem State.setHostPlan_outQ (turns : List HostTurn) : (s.setHostPlan turns).outQ = s.outQ := rfl
@[simp] theorem State.setHostPlan_stepLimit (turns : List HostTurn) : (s.setHostPlan turns).stepLimit = s.stepLimit := rfl
@[simp] theorem State.setHostPlan_jumpFetchFolded (turns : List HostTurn) : (s.setHostPlan turns).jumpFetchFolded = s.jumpFetchFolded := rfl
@[simp] theorem State.setHostPlan_hostPlan (turns : List HostTurn) : (s.setHostPlan turns).hostPlan = turns := rfl

end Sys2Proof.Machine
end

