-- ==== Sys2Proof/Laws/Ops.lean ====
section
/-!
SUPPORT. What each shared operation can do, said once.
-/

namespace Sys2Proof.Machine

variable {s s' t : State} {a : Nat} {w : Word} {cause : Cause} {addr : Nat}

/-! ### The access primitives, case by case -/

theorem memRead_storage (hio : a ≠ Config.ioAddr) (ha : a < s.mem.size) : memRead s a = .value (s.mem.get a) s := by
  simp [memRead, hio, Nat.not_le.mpr ha]

theorem memRead_outside (hio : a ≠ Config.ioAddr) (ha : s.mem.size ≤ a) : memRead s a = .raise .accessViolation a := by
  simp [memRead, hio, ha]

theorem memRead_char {c : Byte} {rest : List Byte} (hq : s.inQ = c :: rest) :
    memRead s Config.ioAddr = .value (wordOfChar c) (s.setInQ rest) := by
  simp [memRead, consoleRead, hq]

theorem memRead_exhausted (hq : s.inQ = []) (hc : s.inClosed = true) :
    memRead s Config.ioAddr = .raise .ioExhausted Config.ioAddr := by
  simp [memRead, consoleRead, hq, hc]

theorem memRead_hold (hq : s.inQ = []) (hc : s.inClosed = false) : memRead s Config.ioAddr = .hold := by
  simp [memRead, consoleRead, hq, hc]

/-- Where a read's word comes from, and what the read changes. -/
theorem memRead_value (h : memRead s a = .value w s') :
    (a ≠ Config.ioAddr ∧ a < s.mem.size ∧ w = s.mem.get a ∧ s' = s) ∨
    (a = Config.ioAddr ∧ ∃ c rest, s.inQ = c :: rest ∧ w = wordOfChar c ∧ s' = s.setInQ rest) := by
  by_cases hio : a = Config.ioAddr
  · subst hio
    cases hq : s.inQ with
    | nil =>
      cases hc : s.inClosed with
      | true => rw [memRead_exhausted hq hc] at h; cases h
      | false => rw [memRead_hold hq hc] at h; cases h
    | cons c rest =>
      rw [memRead_char hq] at h
      cases h
      exact .inr ⟨rfl, c, rest, rfl, rfl, rfl⟩
  · by_cases ha : a < s.mem.size
    · rw [memRead_storage hio ha] at h
      cases h
      exact .inl ⟨hio, ha, rfl, rfl⟩
    · rw [memRead_outside hio (Nat.le_of_not_lt ha)] at h; cases h

/-- When a read faults, and with which record. -/
theorem memRead_raise (h : memRead s a = .raise cause addr) :
    (a ≠ Config.ioAddr ∧ s.mem.size ≤ a ∧ cause = .accessViolation ∧ addr = a) ∨
    (a = Config.ioAddr ∧ s.inQ = [] ∧ s.inClosed = true ∧ cause = .ioExhausted ∧ addr = Config.ioAddr) := by
  by_cases hio : a = Config.ioAddr
  · subst hio
    cases hq : s.inQ with
    | nil =>
      cases hc : s.inClosed with
      | true =>
        rw [memRead_exhausted hq hc] at h
        cases h
        exact .inr ⟨rfl, rfl, rfl, rfl, rfl⟩
      | false => rw [memRead_hold hq hc] at h; cases h
    | cons c rest => rw [memRead_char hq] at h; cases h
  · by_cases ha : a < s.mem.size
    · rw [memRead_storage hio ha] at h; cases h
    · rw [memRead_outside hio (Nat.le_of_not_lt ha)] at h
      cases h
      exact .inl ⟨hio, Nat.le_of_not_lt ha, rfl, rfl⟩

theorem memWrite_storage (hio : a ≠ Config.ioAddr) (ha : a < s.mem.size) (v : Int) :
    memWrite s a v = .done (s.setMem (s.mem.put a (storedWord v))) := by
  simp [memWrite, hio, Nat.not_le.mpr ha]

theorem memWrite_console (v : Int) : memWrite s Config.ioAddr v = .done (s.emit (consoleChar v)) := by
  simp [memWrite]

theorem memWrite_outside (hio : a ≠ Config.ioAddr) (ha : s.mem.size ≤ a) (v : Int) :
    memWrite s a v = .raise .accessViolation a := by
  simp [memWrite, hio, ha]

/-! ### Reading and going on -/

/-- What `withRead` can answer: what its continuation answers, a hold, or the read's fault. -/
theorem withRead_cases {use : Word → State → StepOutcome} (h : withRead s a use = .next t) :
    (∃ w s', memRead s a = .value w s' ∧ use w s' = .next t) ∨ (memRead s a = .hold ∧ t = s) ∨
    (∃ cause addr, memRead s a = .raise cause addr ∧
      t = (s.setStatus .faulted).setFault { cause := cause, addr := addr }) := by
  unfold withRead at h
  split at h
  · exact .inl ⟨_, _, ‹_›, h⟩
  · cases h; exact .inr (.inl ⟨‹_›, rfl⟩)
  · cases h; exact .inr (.inr ⟨_, _, ‹_›, rfl⟩)

/-- `withRead` answers a next state wherever its continuation does. -/
theorem withRead_answers {use : Word → State → StepOutcome} (h : ∀ w s', ∃ t, use w s' = .next t) :
    ∃ t, withRead s a use = .next t := by
  unfold withRead
  split
  · exact h _ _
  · exact ⟨_, rfl⟩
  · exact ⟨_, rfl⟩

/-- What a fetch can answer: the fetched word in IR, a hold, or the read's fault. -/
theorem fetchAt_cases (h : fetchAt s a = .next t) :
    (∃ w s', memRead s a = .value w s' ∧ t = (((s'.setIr w).setPc (a + 1)).setPhase .execute).tick) ∨
    (memRead s a = .hold ∧ t = s) ∨
    (∃ cause addr, memRead s a = .raise cause addr ∧
      t = (s.setStatus .faulted).setFault { cause := cause, addr := addr }) := by
  rcases withRead_cases h with ⟨w, s', hr, hu⟩ | h | h
  · cases hu; exact .inl ⟨w, s', hr, rfl⟩
  · exact .inr (.inl h)
  · exact .inr (.inr h)

/-! ### Conversions -/

theorem jgeTaken_iff {v : Acc} : jgeTaken v = true ↔ 0 ≤ v.toInt := by
  rw [jgeTaken, decide_eq_true_eq]
  exact Iff.rfl

theorem jneTaken_iff {v : Acc} : jneTaken v = true ↔ v.toInt ≠ 0 := by
  rw [jneTaken, decide_eq_true_eq]
  exact Iff.rfl

theorem fitsAcc_iff {r : Int} : fitsAcc r = true ↔ -2147483648 ≤ r ∧ r ≤ 2147483647 := by
  rw [fitsAcc, Bool.and_eq_true, decide_eq_true_eq, decide_eq_true_eq]
  exact Iff.rfl

/-- ACC holds exactly every integer of its range. -/
theorem accValue_accOfInt {r : Int} (h : fitsAcc r = true) : accValue (accOfInt r) = r := by
  rw [fitsAcc_iff] at h
  simp only [accValue, accOfInt, BitVec.toInt_ofInt]
  exact Int.bmod_eq_of_le (by omega) (by omega)

/-- The integer in ACC is always in its range. -/
theorem fitsAcc_accValue (v : Acc) : fitsAcc (accValue v) = true := by
  have h1 := BitVec.toInt_lt (x := v)
  have h2 := BitVec.le_toInt (x := v)
  rw [fitsAcc_iff, accValue]
  norm_num at h1 h2
  omega

theorem accOfInt_accValue (v : Acc) : accOfInt (accValue v) = v := by
  simp [accOfInt, accValue]

theorem fitsAcc_wordValue (w : Word) : fitsAcc (wordValue w) = true := by
  have := w.isLt
  rw [fitsAcc_iff, wordValue]
  omega

end Sys2Proof.Machine
end

