-- ==== Sys2Proof/Laws/PerInstr.lean ====
section
/-!
SUPPORT. Per-instruction statements about the encoding, one lemma per constructor.
-/

namespace Sys2Proof.Laws.EncodingFields

/-- The instruction's word has its opcode in bits 15:12 and its operand in bits 11:0 (R49), and is a word that
names an instruction (R53). -/
def Statement (i : Instr) : Prop :=
  (encode i).toNat = i.opcodeNumber * 4096 + i.operandField.toNat ∧ wordWellFormed (encode i) = true

/-- A match value above twelve free bits adds to the operand. -/
theorem packWord_toNat (k : Fin 8) (a : Operand) :
    (packWord (BitVec.ofNat 16 (k.val * 4096)) a).toNat = k.val * 4096 + a.toNat := by
  have ha := a.isLt
  have hk := k.isLt
  have h := Nat.two_pow_add_eq_or_of_lt (i := 12) ha k.val
  simp only [packWord, BitVec.toNat_or, BitVec.toNat_ofNat, BitVec.toNat_setWidth]
  rw [Nat.mod_eq_of_lt (by omega), Nat.mod_eq_of_lt (by omega), Nat.mul_comm, ← h]

theorem of_pack {i : Instr} (k : Fin 8) (a : Operand) (he : encode i = packWord (BitVec.ofNat 16 (k.val * 4096)) a)
    (hk : i.opcodeNumber = k.val) (ha : i.operandField = a) : Statement i := by
  have hlt := a.isLt
  have := k.isLt
  have hn : (encode i).toNat = k.val * 4096 + a.toNat := by rw [he, packWord_toNat]
  refine ⟨by rw [hn, hk, ha], ?_⟩
  rw [wordWellFormed, hn, decide_eq_true_eq]
  omega

theorem lda (a : Operand) : Statement (.lda a) := of_pack 0 a rfl rfl rfl
theorem sto (a : Operand) : Statement (.sto a) := of_pack 1 a rfl rfl rfl
theorem add (a : Operand) : Statement (.add a) := of_pack 2 a rfl rfl rfl
theorem sub (a : Operand) : Statement (.sub a) := of_pack 3 a rfl rfl rfl
theorem jmp (t : Operand) : Statement (.jmp t) := of_pack 4 t rfl rfl rfl
theorem jge (t : Operand) : Statement (.jge t) := of_pack 5 t rfl rfl rfl
theorem jne (t : Operand) : Statement (.jne t) := of_pack 6 t rfl rfl rfl
theorem stp (x : Operand) : Statement (.stp x) := of_pack 7 x rfl rfl rfl

end Sys2Proof.Laws.EncodingFields
end

