-- ==== Sys2Proof/Laws/Step.lean ====
section
/-!
SUPPORT. What each instruction and each step can answer, said once: proofs about the machine start from these
inversions.
-/

namespace Sys2Proof.Machine

variable {s t : State}

/-! ### Instructions -/

theorem execLda_cases {a : Operand} (h : execLda a s = .next t) :
    (∃ w s', memRead s a.toNat = .value w s' ∧ t = ((s'.setAcc (accOfInt (wordValue w))).setPhase .fetch).tick) ∨
    (memRead s a.toNat = .hold ∧ t = s) ∨
    (∃ cause addr, memRead s a.toNat = .raise cause addr ∧
      t = (s.setStatus .faulted).setFault { cause := cause, addr := addr }) := by
  rcases withRead_cases h with ⟨w, s', hr, hu⟩ | h | h
  · cases hu; exact .inl ⟨w, s', hr, rfl⟩
  · exact .inr (.inl h)
  · exact .inr (.inr h)

/-- The ALU's two ends: the exact result in ACC, or ACC_OVERFLOW. -/
theorem aluResult_cases {r : Int} {a : Operand} (h : aluResult r a s = .next t) :
    (fitsAcc r = true ∧ t = ((s.setAcc (accOfInt r)).setPhase .fetch).tick) ∨
    (fitsAcc r = false ∧ t = (s.setStatus .faulted).setFault { cause := .accOverflow, addr := a.toNat }) := by
  unfold aluResult at h
  split at h <;> cases h
  · exact .inl ⟨‹_›, rfl⟩
  · exact .inr ⟨eq_false_of_ne_true ‹_›, rfl⟩

theorem execAdd_cases {a : Operand} (h : execAdd a s = .next t) :
    (∃ w s', memRead s a.toNat = .value w s' ∧ aluResult (accValue s'.acc + wordValue w) a s' = .next t) ∨
    (memRead s a.toNat = .hold ∧ t = s) ∨
    (∃ cause addr, memRead s a.toNat = .raise cause addr ∧
      t = (s.setStatus .faulted).setFault { cause := cause, addr := addr }) :=
  withRead_cases h

theorem execSub_cases {a : Operand} (h : execSub a s = .next t) :
    (∃ w s', memRead s a.toNat = .value w s' ∧ aluResult (accValue s'.acc - wordValue w) a s' = .next t) ∨
    (memRead s a.toNat = .hold ∧ t = s) ∨
    (∃ cause addr, memRead s a.toNat = .raise cause addr ∧
      t = (s.setStatus .faulted).setFault { cause := cause, addr := addr }) :=
  withRead_cases h

theorem execSto_cases {a : Operand} (h : execSto a s = .next t) :
    (a.toNat = Config.ioAddr ∧ t = ((s.emit (consoleChar (accValue s.acc))).setPhase .fetch).tick) ∨
    (a.toNat ≠ Config.ioAddr ∧ a.toNat < s.mem.size ∧
      t = ((s.setMem (s.mem.put a.toNat (storedWord (accValue s.acc)))).setPhase .fetch).tick) ∨
    (a.toNat ≠ Config.ioAddr ∧ s.mem.size ≤ a.toNat ∧
      t = (s.setStatus .faulted).setFault { cause := .accessViolation, addr := a.toNat }) := by
  unfold execSto directAddr at h
  by_cases hio : a.toNat = Config.ioAddr
  · rw [hio, memWrite_console] at h
    cases h
    exact .inl ⟨hio, rfl⟩
  · by_cases ha : a.toNat < s.mem.size
    · rw [memWrite_storage hio ha] at h
      cases h
      exact .inr (.inl ⟨hio, ha, rfl⟩)
    · rw [memWrite_outside hio (Nat.le_of_not_lt ha)] at h
      cases h
      exact .inr (.inr ⟨hio, Nat.le_of_not_lt ha, rfl⟩)

/-- A taken jump: folded it is the fetch of its target, otherwise it sets PC. -/
theorem takeJump_cases {a : Operand} (h : takeJump a s = .next t) :
    (s.jumpFetchFolded = true ∧ fetchAt s a.toNat = .next t) ∨
    (s.jumpFetchFolded = false ∧ t = ((s.setPc a.toNat).setPhase .fetch).tick) := by
  unfold takeJump directAddr at h
  split at h
  · exact .inl ⟨‹_›, h⟩
  · cases h; exact .inr ⟨eq_false_of_ne_true ‹_›, rfl⟩

theorem execJge_cases {a : Operand} (h : execJge a s = .next t) :
    (jgeTaken s.acc = true ∧ takeJump a s = .next t) ∨
    (jgeTaken s.acc = false ∧ t = (s.setPhase .fetch).tick) := by
  unfold execJge at h
  split at h
  · exact .inl ⟨‹_›, h⟩
  · cases h; exact .inr ⟨eq_false_of_ne_true ‹_›, rfl⟩

theorem execJne_cases {a : Operand} (h : execJne a s = .next t) :
    (jneTaken s.acc = true ∧ takeJump a s = .next t) ∨
    (jneTaken s.acc = false ∧ t = (s.setPhase .fetch).tick) := by
  unfold execJne at h
  split at h
  · exact .inl ⟨‹_›, h⟩
  · cases h; exact .inr ⟨eq_false_of_ne_true ‹_›, rfl⟩

/-! ### The controller -/

/-- EXECUTE: the decoded instruction, or the illegal opcode's fault. -/
theorem executeTransition_cases (h : executeTransition s = .next t) :
    (∃ i, decode s.ir = .ok i ∧ exec i s = .next t) ∨
    (∃ op, decode s.ir = .error (.illegalOpcode op) ∧
      t = (s.setStatus .faulted).setFault { cause := .illegalOpcode, addr := s.pc - 1 }) := by
  unfold executeTransition at h
  split at h
  · exact .inl ⟨_, ‹_›, h⟩
  · cases h; exact .inr ⟨_, ‹_›, rfl⟩

/-- The core's turn answers a next state only while RUNNING: the limit stop, a FETCH or an EXECUTE. -/
theorem coreStep_cases (h : coreStep s = .next t) :
    s.status = .running ∧
    ((limitReached s = true ∧ t = s.setStatus .limitReached) ∨
     (limitReached s = false ∧ s.phase = .fetch ∧ fetchAt s s.pc = .next t) ∨
     (limitReached s = false ∧ s.phase = .execute ∧ executeTransition s = .next t)) := by
  unfold coreStep at h
  split at h
  · cases h
  · refine ⟨not_not.mp ‹_›, ?_⟩
    split at h
    · cases h; exact .inl ⟨‹_›, rfl⟩
    · have hl : limitReached s = false := eq_false_of_ne_true ‹_›
      split at h
      · exact .inr (.inl ⟨hl, ‹_›, h⟩)
      · exact .inr (.inr ⟨hl, ‹_›, h⟩)

/-- A step is a move of the host or the core's turn. -/
theorem step_cases (h : step s = .next t) :
    (s.hostPlan = [] ∧ coreStep s = .next t) ∨
    (∃ rest, s.hostPlan = .core :: rest ∧ coreStep (s.setHostPlan rest) = .next t) ∨
    (∃ c rest, s.hostPlan = .append c :: rest ∧ t = hostAppend c (s.setHostPlan rest)) ∨
    (∃ rest, s.hostPlan = .close :: rest ∧ t = (s.setHostPlan rest).closeInput) := by
  unfold step machineStep at h
  split at h
  · exact .inl ⟨‹_›, h⟩
  · rename_i turn rest hp
    cases turn with
    | core => exact .inr (.inl ⟨rest, hp, h⟩)
    | append c => cases h; exact .inr (.inr (.inl ⟨c, rest, hp, rfl⟩))
    | close => cases h; exact .inr (.inr (.inr ⟨rest, hp, rfl⟩))

/-- With no turn of the host left, a step is the core's. -/
theorem step_idle (h : s.hostPlan = []) : step s = coreStep s := by
  simp [step, machineStep, h]

/-! ### The instruction placed for the next step -/

/-- `presentWord` in FETCH is the state the FETCH of the placed word leaves (log entry 6). -/
theorem presentWord_fetch {w : Word} (hp : s.phase = .fetch) (hio : s.pc ≠ Config.ioAddr) (hwf : s.mem.wf = true) :
    fetchTransition (s.setMem (placeWord s.mem s.pc w)) = .next (presentWord s w) := by
  have hw : cellsWf (max s.mem.size (s.pc + 1)) 0 s.mem.cells = true := cellsWf_mono le_rfl (le_max_left _ _) hwf
  have hget : (placeWord s.mem s.pc w).get s.pc = w := by
    simpa [placeWord, hio, Memory.get, Memory.put] using cellsGet_cellsPut_same hw
  have hsize : s.pc < (placeWord s.mem s.pc w).size := by simp [placeWord, hio]
  have hr : memRead (s.setMem (placeWord s.mem s.pc w)) s.pc = .value w (s.setMem (placeWord s.mem s.pc w)) := by
    rw [memRead_storage hio (by simpa using hsize)]
    simp [hget]
  simp [fetchTransition, fetchAt, withRead, hr, presentWord, hp, complete]

end Sys2Proof.Machine
end

