-- ==== Sys2Proof/Tests/Slice0.lean ====
section
/-!
SUPPORT. Small tests, their expected results taken from spec/95_test_vectors.md (V-…, P…), and for each
obligation with hypotheses a witness that they can be met.
-/

namespace Sys2Proof.Tests

open Sys2Proof Sys2Proof.Machine

/-! ### Helpers -/

/-- A launched core with the given image, input and openness, standing in `phase` at `pc` with `ir` and `acc`. -/
def at_ (image : List Word) (phase : Phase) (pc : Nat) (ir : Word) (acc : Int) (inQ : List Byte := [])
    (inClosed : Bool := true) : State :=
  { launch { image := image, stepLimit := 0, jumpFetchFolded := true, inQ := inQ, inClosed := inClosed, hostPlan := [] }
    with phase := phase, pc := pc, ir := ir, acc := accOfInt acc }

/-- What `f` sees of the next state. -/
def see {α : Type} (o : StepOutcome) (f : State → α) : Option α :=
  match o with
  | .next t => some (f t)
  | _ => none

/-! ### Well-formed words -/

theorem smoke_8000_is_refused : wordWellFormed 0x8000#16 = false := by decide
theorem smoke_ffff_is_refused : wordWellFormed 0xFFFF#16 = false := by decide
theorem smoke_7fff_is_accepted : wordWellFormed 0x7FFF#16 = true := by decide

/-! ### Decoding: words written out from the encodings of R52 (opcode bits, then operand bits) -/

theorem test_decode_lda : decode 0b0000_101010111100#16 = .ok (.lda 0xABC) := rfl
theorem test_decode_sto : decode 0b0001_111111111111#16 = .ok (.sto 0xFFF) := rfl
theorem test_decode_add : decode 0b0010_101010111100#16 = .ok (.add 0xABC) := rfl
theorem test_decode_sub : decode 0b0011_000000000001#16 = .ok (.sub 0x001) := rfl
theorem test_decode_jmp : decode 0b0100_000000000000#16 = .ok (.jmp 0x000) := rfl
theorem test_decode_jge : decode 0b0101_101010111100#16 = .ok (.jge 0xABC) := rfl
theorem test_decode_jne : decode 0b0110_111111111111#16 = .ok (.jne 0xFFF) := rfl
theorem test_decode_stp : decode 0b0111_000100100011#16 = .ok (.stp 0x123) := rfl
theorem test_decode_8 : decode 0b1000_000000000000#16 = .error (.illegalOpcode 8) := rfl
theorem test_encode_jge : encode (.jge 0xABC) = 0x5ABC#16 := by decide
theorem test_table_word : decodeTableWord 16 0x7123 = some (.stp 0x123) := by decide

/-! ### Single steps -/

/-- V-L2: a stored 0xFFFF loads as 65535. -/
theorem test_lda_unsigned :
    see (step (at_ [0x0002, 0x7000, 0xFFFF] .execute 1 0x0002 (-7))) (fun t => (t.acc.toInt, t.phase)) =
      some (65535, .fetch) := by decide
/-- V-M4, V-L4: at 0xFFF a character is taken, whatever cell 4095 holds. -/
theorem test_lda_console :
    see (step { at_ [] .execute 1 0x0FFF 0 [0x01, 0x42] with mem := { size := 5000, cells := [(4095, 0x1234)] } })
      (fun t => (t.acc.toInt, t.inQ)) = some (1, [0x42]) := by decide
/-- V-L10: 70000 stores 0x1170. -/
theorem test_sto_mod_word :
    see (step (at_ [1, 2, 3] .execute 1 0x1002 70000)) (fun t => (t.mem.get 2, t.acc.toInt)) =
      some (0x1170, 70000) := by decide
/-- V-L13: -1 emits 255. -/
theorem test_sto_console :
    see (step (at_ [1, 2, 3] .execute 1 0x1FFF (-1))) (fun t => t.outQ) = some [255] := by decide
/-- V-A4: exactly ACC_MAX does not fault. -/
theorem test_add_to_max :
    see (step (at_ [0, 0, 0, 0xFFFF] .execute 1 0x2003 2147418112)) (fun t => (t.acc.toInt, t.status)) =
      some (2147483647, .running) := by decide
/-- V-A12: the character stays consumed when the sum overflows. -/
theorem test_add_overflow_consumes :
    see (step (at_ [] .execute 1 0x2FFF 2147483647 [1]))
      (fun t => (t.fault, t.inQ, t.acc.toInt, t.phase)) =
      some (some ⟨.accOverflow, 0xFFF⟩, [], 2147483647, .execute) := by decide
/-- V-A7: the word subtracted is unsigned. -/
theorem test_sub_unsigned :
    see (step (at_ [0, 0, 0, 0xFFFF] .execute 1 0x3003 0)) (fun t => t.acc.toInt) = some (-65535) := by decide
/-- V-A8: below ACC_MIN faults with the operand. -/
theorem test_sub_overflow :
    see (step (at_ [0, 0, 0, 1] .execute 1 0x3003 (-2147483648))) (fun t => (t.status, t.fault, t.acc.toInt)) =
      some (.faulted, some ⟨.accOverflow, 3⟩, -2147483648) := by decide
/-- V-J1: the folded jump holds its target's word and stands in EXECUTE. -/
theorem test_jmp_folded :
    see (step (at_ [0x4002, 0x7000, 0x7001] .execute 1 0x4002 0)) (fun t => (t.ir, t.pc, t.phase, t.stepCount)) =
      some (0x7001, 3, .execute, 1) := by decide
/-- V-J11: the folded fetch faults and PC keeps jump-address + 1. -/
theorem test_jmp_folded_fault :
    see (step (at_ [0x4010] .execute 1 0x4010 0)) (fun t => (t.pc, t.ir, t.fault, t.stepCount)) =
      some (1, 0x4010, some ⟨.accessViolation, 0x10⟩, 0) := by decide
/-- V-J4: ACC = 0 is taken. -/
theorem test_jge_zero :
    see (step (at_ [0x5002, 0x7000, 0x7001] .execute 1 0x5002 0)) (fun t => (t.ir, t.pc)) = some (0x7001, 3) := by
  decide
/-- V-J7: ACC_MIN is not taken. -/
theorem test_jge_min :
    see (step (at_ [0x5002, 0x7000, 0x7000] .execute 1 0x5002 (-2147483648))) (fun t => (t.pc, t.phase)) =
      some (1, .fetch) := by decide
/-- V-J9: -1 is taken. -/
theorem test_jne_negative :
    see (step (at_ [0x6002, 0x7000, 0x7001] .execute 1 0x6002 (-1))) (fun t => (t.ir, t.pc)) = some (0x7001, 3) := by
  decide
/-- V-J8: 0 is not taken. -/
theorem test_jne_zero :
    see (step (at_ [0x6002, 0x7000, 0x7000] .execute 1 0x6002 0)) (fun t => (t.pc, t.phase)) = some (1, .fetch) := by
  decide
/-- V-S2: any word 0x7000 to 0x7FFF halts, and counts. -/
theorem test_stp_operand :
    see (step (at_ [0x7123] .execute 1 0x7123 0)) (fun t => (t.status, t.pc, t.ir, t.stepCount)) =
      some (.halted, 1, 0x7123, 1) := by decide
/-- V-C4: opcode 8 faults with the word's own address, and does not count. -/
theorem test_illegal_opcode :
    see (step (at_ [0x8000] .execute 1 0x8000 0)) (fun t => (t.fault, t.pc, t.phase, t.stepCount)) =
      some (some ⟨.illegalOpcode, 0⟩, 1, .execute, 0) := by decide
/-- V-C2: the empty image faults at address 0. -/
theorem test_empty_image :
    see (step State.reset) (fun t => (t.fault, t.pc, t.phase, t.stepCount)) =
      some (some ⟨.accessViolation, 0⟩, 0, .fetch, 0) := by decide
/-- V-C12: the limit is tested before the read that would hold. -/
theorem test_limit_before_hold :
    see (step { at_ [0x0FFF, 0x7000] .execute 1 0x0FFF 0 [] false with stepLimit := 1, stepCount := 1 })
      (fun t => (t.status, t.stepCount)) = some (.limitReached, 1) := by decide
/-- V-C11: a jump to the console with no input yet holds: nothing changes. -/
theorem test_jump_holds :
    let s := at_ [0x4FFF, 0x7000] .execute 1 0x4FFF 0 [] false
    see (step s) (fun t => t) = some s := by decide
/-- V-M6: storage above 4095 is fetched. -/
theorem test_fetch_above_4095 :
    see (step { at_ [] .fetch 4096 0 0 with mem := { size := 5000, cells := [(4096, 0x7000)] } })
      (fun t => (t.ir, t.pc)) = some (0x7000, 4097) := by decide
/-- The placed word is what the next step after reset runs. -/
theorem test_with_fetch_word :
    see (step (State.reset.withFetchWord 16 0x7ABC)) (fun t => (t.status, t.pc, t.stepCount)) =
      some (.halted, 1, 2) := by decide

/-! ### Storage, the image file and the assembler -/

/-- Writing what an unlisted cell reads as removes the entry. -/
theorem test_put_zero_removes : ({ size := 3, cells := [(1, 7)] } : Memory).put 1 0 = { size := 3, cells := [] } := by
  decide
theorem test_wf_refuses_disorder : ({ size := 3, cells := [(2, 7), (1, 7)] } : Memory).wf = false := by decide
theorem test_wf_refuses_zero : ({ size := 3, cells := [(2, 0)] } : Memory).wf = false := by decide
theorem test_wf_refuses_outside : ({ size := 2, cells := [(2, 7)] } : Memory).wf = false := by decide
/-- R58: `LDA 2` is the line `0002`. -/
theorem test_render : ImageFile.renderWord 0x0002 = ['0', '0', '0', '2'] := by decide
/-- D20: an uppercase digit is refused. -/
theorem test_parse_uppercase : ImageFile.parseWord ['0', 'F', 'f', 'f'] = none := by decide
/-- W-1. -/
theorem test_assemble_w1 :
    Assembler.transcribe [['L', 'D', 'A', ' ', ':', 'f'], ['S', 'T', 'P'], [':', 'f'], ['#', '0', '0', '0', '5']] =
      some [0x0002, 0x7000, 0x0005] := by decide
/-- V-E9: the last definition wins. -/
theorem test_assemble_last_label :
    Assembler.transcribe [[':', 'x'], ['#', '1'], ['J', 'M', 'P', ' ', ':', 'x'], [':', 'x'], ['S', 'T', 'P']] =
      some [0x0001, 0x4002, 0x7000] := by decide
/-- V-E12: a malformed line takes a slot and emits nothing; a transcriber refuses the source. -/
theorem test_assemble_malformed :
    let source := [['L', 'D', 'A', ' ', ':', 'd'], ['f', 'o', 'o'], ['S', 'T', 'P'], [':', 'd'], ['#', '7']]
    (Assembler.assemble source).toOption = some [0x0003, 0x7000, 0x0007] ∧ Assembler.malformedLines source = [1] ∧
      Assembler.transcribe source = none := by decide
/-- V-E2, V-E3, V-E5: the literals -1, 0x8000 and the C reading of 010, which a transcriber refuses. -/
theorem test_literals :
    Assembler.parseInt ['-', '1'] = -1 ∧ Assembler.parseInt ['0', 'x', '8', '0', '0', '0'] = 0x8000 ∧
      Assembler.parseInt ['0', '1', '0'] = 8 ∧ Assembler.plainLiteral ['0', '1', '0'] = false ∧
      Assembler.plainLiteral ['0', '0', '0', '5'] = true := by decide
/-- V-E7: `LDA -1`, `STP 5` and `LDA` alone. -/
theorem test_operands :
    (Assembler.assemble [['L', 'D', 'A', ' ', '-', '1'], ['S', 'T', 'P', ' ', '5'], ['L', 'D', 'A']]).toOption =
      some [0x0FFF, 0x7005, 0x0000] := by decide
/-- V-E8, V-E14: an indented line is ignored, a lowercase mnemonic is malformed. -/
theorem test_classify :
    Assembler.classify [' ', 'L', 'D', 'A', ' ', '5'] = .ignored ∧
      Assembler.classify ['l', 'd', 'a', ' ', '5'] = .malformed := by decide

/-! ### Witnesses: the hypotheses of each obligation can be met -/

/-- A core in EXECUTE with an image of three words, the second character waiting. -/
def demo (ir : Word) (acc : Int) : State := at_ [0x0002, 0x7000, 0xFFFF] .execute 1 ir acc [0x41] false

theorem demo_moves (ir : Word) (acc : Int) : (demo ir acc).coreMoves := ⟨rfl, rfl, rfl⟩

/-- The last cell is read. -/
theorem demo_reads (ir : Word) (acc : Int) : (demo ir acc).Reads 2 0xFFFF (demo ir acc) :=
  .inl ⟨by decide, by show 2 < 3; decide, rfl, rfl⟩

/-- The console is read. -/
theorem demo_readsConsole (ir : Word) (acc : Int) :
    (demo ir acc).Reads 0xFFF 0x41 { demo ir acc with inQ := [] } :=
  .inr ⟨rfl, 0x41, [], rfl, rfl, rfl⟩

/-- Address MEM_SIZE faults. -/
theorem demo_faults (ir : Word) (acc : Int) : (demo ir acc).ReadFaults 3 ⟨.accessViolation, 3⟩ :=
  .inl ⟨by decide, Nat.le_refl 3, rfl⟩

/-- A closed, empty console faults. -/
theorem ended_faults (phase : Phase) (pc : Nat) (ir : Word) :
    (at_ [0x7000] phase pc ir 0).ReadFaults 0xFFF ⟨.ioExhausted, 0xFFF⟩ := .inr ⟨rfl, rfl, rfl, rfl⟩

/-- An open, empty console holds. -/
theorem open_holds (phase : Phase) (pc : Nat) (ir : Word) : (at_ [0x7000] phase pc ir 0 [] false).ReadHolds 0xFFF :=
  ⟨rfl, rfl, rfl⟩

theorem witness_OpcodeMapIsMatchAndMask :
    (0x0FFF &&& 0xF000#16 = 0x0000#16) ∧ (0x1FFF &&& 0xF000#16 = 0x1000#16) ∧ (0x2FFF &&& 0xF000#16 = 0x2000#16) ∧
    (0x3FFF &&& 0xF000#16 = 0x3000#16) ∧ (0x4FFF &&& 0xF000#16 = 0x4000#16) ∧ (0x5FFF &&& 0xF000#16 = 0x5000#16) ∧
    (0x6FFF &&& 0xF000#16 = 0x6000#16) ∧ (0x7FFF &&& 0xF000#16 = 0x7000#16) ∧ decode 0x7FFF#16 = .ok (.stp 0xFFF) := by
  refine ⟨?_, ?_, ?_, ?_, ?_, ?_, ?_, ?_, rfl⟩ <;> decide

theorem witness_WordsFrom8000AreNoInstruction : (0x7FFF#16).toNat < 0x8000 ∧ 0x8000 ≤ (0x8000#16).toNat := by decide

theorem witness_EncodeOfDecodeIsTheWord : decode 0x7123#16 = .ok (.stp 0x123) := rfl

theorem witness_LaunchStartsInTheResetState : 1 < ([0x7000, 0x0005] : List Word).length := by decide

def oneWord : LaunchInputs :=
  { image := [0x7000], stepLimit := 1, jumpFetchFolded := false, inQ := [], inClosed := true, hostPlan := [] }

theorem witness_FirstTransitionFetchesWordZero :
    oneWord.hostPlan = [] ∧ oneWord.image = 0x7000 :: [] ∧ { oneWord with image := [] }.image = [] := ⟨rfl, rfl, rfl⟩

/-- A running state, not a reset state, that meets the invariant and has a next one. -/
theorem witness_EveryStepKeepsTheInvariant : (demo 0x1002 70000).Inv ∧ ∃ t, step (demo 0x1002 70000) = .next t := by
  refine ⟨⟨by decide, by decide, by decide, by decide, ?_, by decide, by decide, by decide⟩, _, rfl⟩
  intro r h
  cases h

/-- A faulted state that meets the invariant: its host still closes the input. -/
theorem witness_faulted_meets_the_invariant :
    ({ at_ [0x8000] .execute 1 0x8000 0 with
        status := .faulted, fault := some ⟨.illegalOpcode, 0⟩, hostPlan := [.close] } : State).Inv := by
  refine ⟨by decide, by decide, by decide, by decide, ?_, by decide, by decide, by decide⟩
  intro r h
  cases h
  exact ⟨rfl, by decide, rfl⟩

theorem witness_FetchTransition :
    let s := at_ [0x0002, 0x7000, 0xFFFF] .fetch 2 0 0
    s.coreMoves ∧ s.phase = .fetch ∧ s.Reads s.pc 0xFFFF s ∧
    { s with pc := 3 }.ReadFaults 3 ⟨.accessViolation, 3⟩ ∧
    { s with pc := 0xFFF, inQ := [0xFF] }.Reads 0xFFF 0x00FF { s with pc := 0xFFF, inQ := [] } ∧
    { s with pc := 0xFFF }.ReadFaults 0xFFF ⟨.ioExhausted, 0xFFF⟩ ∧
    { s with pc := 0xFFF, inClosed := false }.ReadHolds 0xFFF :=
  ⟨⟨rfl, rfl, rfl⟩, rfl, .inl ⟨by decide, Nat.le_refl 3, rfl, rfl⟩, .inl ⟨by decide, Nat.le_refl 3, rfl⟩,
    .inr ⟨rfl, 0xFF, [], rfl, rfl, rfl⟩, .inr ⟨rfl, rfl, rfl, rfl⟩, ⟨rfl, rfl, rfl⟩⟩

theorem witness_StepRunsTheDecodedInstruction :
    (demo 0x1002 7).coreMoves ∧ (demo 0x1002 7).phase = .execute ∧ decode (demo 0x1002 7).ir = .ok (.sto 2) ∧
    (let s := at_ [0x0002, 0x7000, 0x1001] .fetch 2 0 0
     s.coreMoves ∧ s.stepLimit = 0 ∧ s.phase = .fetch ∧ s.pc ≠ 0xFFF ∧ s.pc < s.mem.size ∧
       decode (s.mem.get s.pc) = .ok (.sto 1)) :=
  ⟨⟨rfl, rfl, rfl⟩, rfl, rfl, ⟨rfl, rfl, rfl⟩, rfl, rfl, by decide, by decide, rfl⟩

theorem witness_IllegalOpcodeFaults :
    (demo 0x8000 0).coreMoves ∧ (demo 0x8000 0).phase = .execute ∧ 1 ≤ (demo 0x8000 0).pc ∧
      8 ≤ (demo 0x8000 0).ir.toNat / 4096 := ⟨⟨rfl, rfl, rfl⟩, rfl, by decide, by decide⟩

/-- A core's turn with no turn left, and a scheduled one. -/
theorem witness_CoreStepOrder_turns :
    let s := demo 0x7000 0
    s.CoreTurn s ∧ { s with hostPlan := [.core, .close] }.CoreTurn { s with hostPlan := [.close] } :=
  ⟨.inl ⟨rfl, rfl⟩, .inr ⟨[.close], rfl, rfl⟩⟩

theorem witness_CoreStepOrder :
    let s := demo 0x7000 0
    let f := at_ [0x7000] .fetch 0 0 0
    s.hostPlan = [] ∧ { s with status := .halted }.status ≠ .running ∧
    { s with stepLimit := 1, stepCount := 1 }.stepLimit ≠ 0 ∧
    { s with stepLimit := 1, stepCount := 1 }.stepLimit ≤ { s with stepLimit := 1, stepCount := 1 }.stepCount ∧
    s.status = .running ∧ s.stepLimit = 0 ∧ s.phase = .execute ∧
    f.hostPlan = [] ∧ f.status = .running ∧ { f with stepLimit := 1 }.stepCount < { f with stepLimit := 1 }.stepLimit ∧
    f.phase = .fetch := by decide

/-- Each of the four ends of an attempt: completed, held (in FETCH, and at a folded jump), faulted, limit. -/
theorem witness_StepCountCountsCompletedTransitions :
    (demo 0x7000 0).hostPlan = [] ∧ (demo 0x7000 0).status = .running ∧
    (∃ t, step (demo 0x7000 0) = .next t) ∧ ¬ (demo 0x7000 0).TransitionHolds ∧
    (let s := at_ [0x7000] .fetch 0xFFF 0 0 [] false
     s.hostPlan = [] ∧ s.status = .running ∧ s.TransitionHolds ∧ step s = .next s) ∧
    (at_ [0x7000] .execute 1 0x4FFF 0 [] false).TransitionHolds ∧
    (∃ t, step (demo 0x8000 0) = .next t ∧ t.status = .faulted) ∧
    (∃ t, step { demo 0x7000 0 with stepLimit := 1, stepCount := 1 } = .next t ∧ t.status = .limitReached) := by
  refine ⟨rfl, rfl, ⟨_, rfl⟩, ?_, ⟨rfl, rfl, ⟨_, rfl, rfl, rfl, rfl⟩, rfl⟩, ⟨_, rfl, rfl, rfl, rfl⟩, ⟨_, rfl, rfl⟩,
    ⟨_, rfl, rfl⟩⟩
  rintro ⟨a, h, -⟩
  cases h

/-- A fault with nothing consumed, and the one that keeps a character consumed. -/
theorem witness_FaultsArePrecise :
    (demo 0x8000 0).hostPlan = [] ∧ (demo 0x8000 0).status = .running ∧
    (∃ t, step (demo 0x8000 0) = .next t ∧ t.status = .faulted) ∧
    (∃ t, step (demo 0x2FFF 2147483647) = .next t ∧ t.status = .faulted ∧ t.inQ = []) :=
  ⟨rfl, rfl, ⟨_, rfl, rfl⟩, ⟨_, rfl, rfl, rfl⟩⟩

/-- A fault of each of the four causes. -/
theorem witness_FaultRecordNamesTheCause :
    (∃ t, step (demo 0x0003 0) = .next t ∧ t.status = .faulted ∧ t.fault = some ⟨.accessViolation, 3⟩) ∧
    (∃ t, step (at_ [0x7000] .fetch 0xFFF 0 0) = .next t ∧ t.status = .faulted ∧
      t.fault = some ⟨.ioExhausted, 0xFFF⟩) ∧
    (∃ t, step (demo 0x8000 0) = .next t ∧ t.status = .faulted ∧ t.fault = some ⟨.illegalOpcode, 0⟩) ∧
    (∃ t, step (demo 0x2002 2147483647) = .next t ∧ t.status = .faulted ∧ t.fault = some ⟨.accOverflow, 2⟩) :=
  ⟨⟨_, rfl, rfl, rfl⟩, ⟨_, rfl, rfl, rfl⟩, ⟨_, rfl, rfl, rfl⟩, ⟨_, rfl, rfl, rfl⟩⟩

theorem witness_EndedRunIsFrozen :
    let s : State := { demo 0x7000 0 with status := .halted, hostPlan := [.close] }
    s.status ≠ .running ∧ ∃ t, step s = .next t := ⟨by decide, _, rfl⟩

theorem witness_ConsoleAddressNeverTouchesStorage :
    (∃ w t, memRead (demo 0 0) 0xFFF = .value w t) ∧ memRead (at_ [0x7000] .execute 1 0 0 [] false) 0xFFF = .hold ∧
    memRead (at_ [0x7000] .execute 1 0 0) 0xFFF = .raise .ioExhausted 0xFFF := ⟨⟨_, _, rfl⟩, rfl, rfl⟩

theorem witness_BoundsCheckIsStrict : (3 : Nat) ≠ 0xFFF ∧ (demo 0 0).mem.size ≤ 3 := by decide

theorem witness_StoreIsSeenByTheVeryNextFetch :
    let s := demo 0x1001 0x7000
    s.mem.wf = true ∧ s.coreMoves ∧ s.stepLimit = 0 ∧ s.phase = .execute ∧ decode s.ir = .ok (.sto 1) ∧
    (1 : Operand).toNat = s.pc ∧ s.pc ≠ 0xFFF ∧ s.pc < s.mem.size :=
  ⟨by decide, ⟨rfl, rfl, rfl⟩, rfl, rfl, rfl, by decide, by decide, by decide⟩

theorem witness_StoreThenLoadGivesAccModWord :
    (demo 0x1002 (-1)).mem.wf = true ∧ (2 : Operand).toNat ≠ 0xFFF ∧ (2 : Operand).toNat < (demo 0x1002 (-1)).mem.size := by
  decide

theorem witness_LdaLoadsTheAccumulator :
    (demo 0x0002 0).Reads (2 : Operand).toNat 0xFFFF (demo 0x0002 0) ∧
    (demo 0x0FFF 0).Reads (0xFFF : Operand).toNat 0x41 { demo 0x0FFF 0 with inQ := [] } ∧
    (demo 0x0003 0).ReadFaults (3 : Operand).toNat ⟨.accessViolation, 3⟩ ∧
    (at_ [0x7000] .execute 1 0x0FFF 0).ReadFaults (0xFFF : Operand).toNat ⟨.ioExhausted, 0xFFF⟩ ∧
    (at_ [0x7000] .execute 1 0x0FFF 0 [] false).ReadHolds (0xFFF : Operand).toNat :=
  ⟨demo_reads _ _, demo_readsConsole _ _, demo_faults _ _, ended_faults _ _ _, open_holds _ _ _⟩

theorem witness_StoStoresTheAccumulator :
    (2 : Operand).toNat ≠ 0xFFF ∧ (2 : Operand).toNat < (demo 0 0).mem.size ∧ (demo 0 0).mem.wf = true ∧
    (0xFFF : Operand).toNat = 0xFFF ∧ (3 : Operand).toNat ≠ 0xFFF ∧ (demo 0 0).mem.size ≤ (3 : Operand).toNat := by
  decide

/-- Exactly ACC_MAX, and one above it. -/
theorem witness_AddIsExactOrOverflows :
    (demo 0x2002 2147418112).Reads (2 : Operand).toNat 0xFFFF (demo 0x2002 2147418112) ∧
    (demo 0x2002 2147418112).acc.toInt + (0xFFFF#16).toNat ≤ 2 ^ 31 - 1 ∧
    (demo 0x2002 2147418113).Reads (2 : Operand).toNat 0xFFFF (demo 0x2002 2147418113) ∧
    2 ^ 31 - 1 < (demo 0x2002 2147418113).acc.toInt + (0xFFFF#16).toNat ∧
    (demo 0x2003 0).ReadFaults (3 : Operand).toNat ⟨.accessViolation, 3⟩ ∧
    (at_ [0x7000] .execute 1 0x2FFF 0 [] false).ReadHolds (0xFFF : Operand).toNat :=
  ⟨demo_reads _ _, by decide, demo_reads _ _, by decide, demo_faults _ _, open_holds _ _ _⟩

/-- Exactly ACC_MIN, and one below it. -/
theorem witness_SubIsExactOrOverflows :
    (demo 0x3002 (-2147418113)).Reads (2 : Operand).toNat 0xFFFF (demo 0x3002 (-2147418113)) ∧
    -2 ^ 31 ≤ (demo 0x3002 (-2147418113)).acc.toInt - (0xFFFF#16).toNat ∧
    (demo 0x3002 (-2147418114)).Reads (2 : Operand).toNat 0xFFFF (demo 0x3002 (-2147418114)) ∧
    (demo 0x3002 (-2147418114)).acc.toInt - (0xFFFF#16).toNat < -2 ^ 31 ∧
    (demo 0x3003 0).ReadFaults (3 : Operand).toNat ⟨.accessViolation, 3⟩ ∧
    (at_ [0x7000] .execute 1 0x3FFF 0 [] false).ReadHolds (0xFFF : Operand).toNat :=
  ⟨demo_reads _ _, by decide, demo_reads _ _, by decide, demo_faults _ _, open_holds _ _ _⟩

/-- Folded: a target in storage, at the console, past the end, at an ended and at an open console; unfolded. -/
theorem witness_JmpTakesItsJump :
    (demo 0x4002 0).jumpFetchFolded = true ∧ (demo 0x4002 0).Reads (2 : Operand).toNat 0xFFFF (demo 0x4002 0) ∧
    (demo 0x4FFF 0).Reads (0xFFF : Operand).toNat 0x41 { demo 0x4FFF 0 with inQ := [] } ∧
    (demo 0x4003 0).ReadFaults (3 : Operand).toNat ⟨.accessViolation, 3⟩ ∧
    (at_ [0x7000] .execute 1 0x4FFF 0).ReadFaults (0xFFF : Operand).toNat ⟨.ioExhausted, 0xFFF⟩ ∧
    (at_ [0x7000] .execute 1 0x4FFF 0 [] false).ReadHolds (0xFFF : Operand).toNat ∧
    { demo 0x4002 0 with jumpFetchFolded := false }.jumpFetchFolded = false :=
  ⟨rfl, demo_reads _ _, demo_readsConsole _ _, demo_faults _ _, ended_faults _ _ _, open_holds _ _ _, rfl⟩

theorem witness_JgeJumpsUnlessNegative :
    0 ≤ (demo 0x5002 0).acc.toInt ∧ (demo 0x5002 0).jumpFetchFolded = true ∧
    (demo 0x5002 0).Reads (2 : Operand).toNat 0xFFFF (demo 0x5002 0) ∧ (demo 0x5002 (-1)).acc.toInt < 0 :=
  ⟨by decide, rfl, demo_reads _ _, by decide⟩

theorem witness_JneJumpsUnlessZero :
    (demo 0x6002 (-1)).acc.toInt ≠ 0 ∧ (demo 0x6002 (-1)).jumpFetchFolded = true ∧
    (demo 0x6002 (-1)).Reads (2 : Operand).toNat 0xFFFF (demo 0x6002 (-1)) ∧ (demo 0x6002 0).acc.toInt = 0 :=
  ⟨by decide, rfl, demo_reads _ _, by decide⟩

theorem witness_StpHaltsForGood :
    (demo 0x7FFF 0).coreMoves ∧ (demo 0x7FFF 0).phase = .execute ∧ 0x7000 ≤ (demo 0x7FFF 0).ir.toNat ∧
      (demo 0x7FFF 0).ir.toNat ≤ 0x7FFF := ⟨⟨rfl, rfl, rfl⟩, rfl, by decide, by decide⟩

theorem witness_LoadAndArithmeticFrame :
    (∃ t, exec (.lda 0xFFF) (demo 0x0FFF 0) = .next t) ∧ (∃ t, exec (.add 2) (demo 0x2002 0) = .next t) ∧
    (∃ t, exec (.sub 2) (demo 0x3002 0) = .next t) := ⟨⟨_, rfl⟩, ⟨_, rfl⟩, ⟨_, rfl⟩⟩

theorem witness_StoFrame :
    (∃ t, exec (.sto 2) (demo 0x1002 9) = .next t) ∧ directAddr 2 = 2 ∧ directAddr 2 ≠ 0xFFF ∧
    (∃ t, exec (.sto 0xFFF) (demo 0x1FFF 9) = .next t) ∧ directAddr 0xFFF = 0xFFF :=
  ⟨⟨_, rfl⟩, rfl, by decide, ⟨_, rfl⟩, rfl⟩

theorem witness_JumpFrame :
    (∃ t, exec (.jmp 2) (demo 0x4002 0) = .next t) ∧ (∃ t, exec (.jge 0xFFF) (demo 0x5FFF 0) = .next t) ∧
    (∃ t, exec (.jne 2) { demo 0x6002 1 with jumpFetchFolded := false } = .next t) := ⟨⟨_, rfl⟩, ⟨_, rfl⟩, ⟨_, rfl⟩⟩

theorem witness_OnlyLdaAddSubWriteAcc : ∃ t, step (demo 0x0002 0) = .next t ∧ t.acc ≠ (demo 0x0002 0).acc :=
  ⟨_, rfl, by decide⟩

theorem witness_OnlySubMakesAccNegative :
    0 ≤ (demo 0x3002 0).acc.toInt ∧ ∃ t, step (demo 0x3002 0) = .next t ∧ t.acc.toInt < 0 :=
  ⟨by decide, _, rfl, by decide⟩

theorem witness_PcChangesOnlyByFetchAndTakenJump :
    (∃ t, step (at_ [0x7000] .fetch 0 0 0) = .next t ∧ t.pc ≠ 0) ∧
    (∃ t, step (demo 0x4002 0) = .next t ∧ t.pc ≠ (demo 0x4002 0).pc) ∧
    (∃ t, step { demo 0x4002 0 with jumpFetchFolded := false } = .next t ∧ t.pc ≠ (demo 0x4002 0).pc) :=
  ⟨⟨_, rfl, by decide⟩, ⟨_, rfl, by decide⟩, ⟨_, rfl, by decide⟩⟩

theorem witness_IrChangesOnlyByFetch :
    (∃ t, step (at_ [0x7000] .fetch 0 0 0) = .next t ∧ t.ir ≠ 0) ∧
    (∃ t, step (demo 0x4FFF 0) = .next t ∧ t.ir ≠ (demo 0x4FFF 0).ir) := ⟨⟨_, rfl, by decide⟩, ⟨_, rfl, by decide⟩⟩

theorem witness_OnlyStoWritesStorageAndOutput :
    (∃ t, step (demo 0x1002 9) = .next t ∧ t.mem ≠ (demo 0x1002 9).mem) ∧
    (∃ t, step (demo 0x1FFF 9) = .next t ∧ t.outQ ≠ (demo 0x1FFF 9).outQ) := ⟨⟨_, rfl, by decide⟩, ⟨_, rfl, by decide⟩⟩

theorem witness_InputIsTakenFromItsHead :
    (∃ t, step (demo 0x0FFF 0) = .next t ∧ (demo 0x0FFF 0).hostPlan = [] ∧ (demo 0x0FFF 0).inQ = 0x41 :: t.inQ) ∧
    (∃ t, step { demo 0x0FFF 0 with hostPlan := [.core] } = .next t) ∧
    (∃ t, step (at_ [0x0FFF] .execute 1 0x0FFF 0 [0x41]) = .next t ∧
      (at_ [0x0FFF] .execute 1 0x0FFF 0 [0x41]).inClosed = true) :=
  ⟨⟨_, rfl, rfl, rfl⟩, ⟨_, rfl⟩, ⟨_, rfl, rfl⟩⟩

theorem witness_LaunchInputsNeverChange : ∃ t, step (demo 0x1002 9) = .next t := ⟨_, rfl⟩

theorem witness_HostMovesTouchOnlyTheInput :
    let s : State := { demo 0x7000 0 with hostPlan := [.append 0x42] }
    s.hostPlan = .append 0x42 :: [] ∧ s.inClosed = false ∧ { s with inClosed := true }.inClosed = true ∧
    { s with hostPlan := [.close] }.hostPlan = .close :: [] := ⟨rfl, rfl, rfl, rfl⟩

theorem witness_HoldIsLiftedOnlyByTheHost :
    let s := at_ [0x7000] .fetch 0xFFF 0 0 [] false
    s.coreMoves ∧ s.phase = .fetch ∧ s.ReadHolds s.pc := ⟨⟨rfl, rfl, rfl⟩, rfl, rfl, rfl, rfl⟩

/-- A taken jump whose target's fetch holds, with and without the fold. -/
theorem witness_FoldedAndUnfoldedJumpsAgree_hold :
    let s := at_ [0x7000] .execute 1 0x4FFF 0 [] false
    s.coreMoves ∧ s.takesJump = true ∧ s.ReadHolds (s.ir.toNat % 4096) ∧ step s = .next s :=
  ⟨⟨rfl, rfl, rfl⟩, rfl, ⟨rfl, rfl, rfl⟩, rfl⟩

/-- A taken jump that completes, one that faults, and an instruction that is no taken jump. -/
theorem witness_FoldedAndUnfoldedJumpsAgree :
    (demo 0x4002 0).coreMoves ∧ (demo 0x4002 0).stepLimit = 0 ∧ (demo 0x4002 0).jumpFetchFolded = true ∧
    (∃ t, step (demo 0x4002 0) = .next t ∧ t.stepCount = (demo 0x4002 0).stepCount + 1) ∧
    ((demo 0x4002 0).phase = .execute ∧ (demo 0x4002 0).takesJump = true) ∧
    (∃ t, step (demo 0x4003 0) = .next t ∧ t.status = .faulted) ∧ (demo 0x4003 0).takesJump = true ∧
    (∃ t, step (demo 0x1002 0) = .next t) ∧ ¬ ((demo 0x1002 0).phase = .execute ∧ (demo 0x1002 0).takesJump = true) :=
  ⟨⟨rfl, rfl, rfl⟩, rfl, rfl, ⟨_, rfl, rfl⟩, ⟨rfl, rfl⟩, ⟨_, rfl, rfl⟩, rfl, ⟨_, rfl⟩, by decide⟩

/-- W-2, with and without the fold. -/
theorem witness_StepCountOfAHaltedRun :
    (∃ t k, tallyRun 2 (launch { oneWord with stepLimit := 0, jumpFetchFolded := true }) ⟨0, 0⟩ = some (t, k) ∧
      t.status = .halted) ∧
    (∃ t k, tallyRun 2 (launch { oneWord with stepLimit := 0 }) ⟨0, 0⟩ = some (t, k) ∧ t.status = .halted) :=
  ⟨⟨_, _, rfl, rfl⟩, ⟨_, _, rfl, rfl⟩⟩

theorem witness_AddThenSubRestoresAcc :
    (2 : Operand).toNat ≠ 0xFFF ∧ (2 : Operand).toNat < (demo 0x2002 (-7)).mem.size ∧
    (demo 0x2002 (-7)).acc.toInt + ((demo 0x2002 (-7)).mem.get (2 : Operand).toNat).toNat ≤ 2 ^ 31 - 1 := by decide

theorem witness_EmittedWordCount :
    (∀ l ∈ [['S', 'T', 'P'], ['#', '5']], Assembler.classify l ≠ .malformed) ∧
    ∃ words, Assembler.assemble [['S', 'T', 'P'], ['#', '5']] = .ok words := ⟨by decide, _, rfl⟩

theorem witness_LastLabelDefinitionWins :
    Assembler.classify [':', 'x'] = .label ['x'] ∧ Assembler.tokens ['x'] = [['x']] ∧
    (∃ table, Assembler.passOne 0 0 [] ([[':', 'x'], ['#', '1']] ++ [':', 'x'] :: [['S', 'T', 'P']]) = .ok table) ∧
    ∀ l' ∈ [['S', 'T', 'P']], ∀ text', Assembler.classify l' = .label text' → Assembler.tokens text' ≠ [['x']] := by
  refine ⟨by decide, by decide, ⟨_, rfl⟩, ?_⟩
  intro l' hl text' h
  simp only [List.mem_singleton] at hl
  subst hl
  cases h

/-- A literal, a label that resolves, no token, and a token after a space. -/
theorem witness_EmittedWordsAreMasked :
    Assembler.operandToken [' ', '5'] = some ['5'] ∧ ['5'].head? ≠ some ':' ∧
    Assembler.operandToken [' ', ':', 'x'] = some (':' :: ['x']) ∧ Assembler.lookupLabel [(['x'], 4098)] ['x'] = some 4098 ∧
    ∀ c ∈ [':', 'x'], Assembler.isSpace c = false ∧ c ≠ ';' := by
  refine ⟨rfl, by decide, rfl, rfl, ?_⟩
  simp only [List.forall_mem_cons]
  exact ⟨⟨rfl, by decide⟩, ⟨rfl, by decide⟩, by simp⟩

/-- R66: a `;` in the operand token may begin a comment, and the line gets no word (log entry 10). -/
theorem test_glued_comment : Assembler.operandToken [' ', '5', ';', 'c'] = none := by decide

/-- The core's scheduled turn, with a next state and after the run's end. -/
theorem witness_ScheduledCoreTurnIsTheIdleStep :
    { demo 0x1002 9 with hostPlan := [.core, .close] }.hostPlan = .core :: [.close] ∧
    (∃ t, step { demo 0x1002 9 with hostPlan := [] } = .next t) ∧
    step { demo 0x1002 9 with status := .halted, hostPlan := [] } = .fault (.runOver .halted) := ⟨rfl, ⟨_, rfl⟩, rfl⟩

/-- A folded taken jump in EXECUTE after its FETCH: one instruction executed and one jump taken before it. -/
theorem witness_EveryStepKeepsTheTally :
    Tally.Fits ⟨1, 1⟩ { demo 0x4002 0 with stepCount := 2 } ∧
    ∃ t, step { demo 0x4002 0 with stepCount := 2 } = .next t := ⟨⟨rfl, by decide⟩, _, rfl⟩

theorem witness_UnresolvedLabelGivesNoImage :
    let l := ['L', 'D', 'A', ' ', ':', 'n']
    l ∈ [l] ∧ Assembler.classify l = .instruction .lda [' ', ':', 'n'] ∧
    Assembler.operandToken [' ', ':', 'n'] = some (':' :: ['n']) ∧ Assembler.passOne 0 0 [] [l] = .ok [] ∧
    Assembler.lookupLabel [] ['n'] = none := ⟨List.mem_singleton_self _, rfl, rfl, rfl, rfl⟩

theorem witness_TranscriberRefusesMalformedLines :
    Assembler.transcribe [['S', 'T', 'P'], ['#', '5']] = some [0x7000, 0x0005] := by decide

end Sys2Proof.Tests
end

section
/-!
PROOFS. The memory statements (spec/20_memory.md): the console address lies outside storage, and the bounds check
is strict.
-/

namespace Sys2Proof.Machine

variable {s t : State} {a addr : Nat} {w : Word} {cause : Cause}

/-! ### Reads and fetches that do not complete -/

/-- A read holds only at the console, with nothing queued and the input open (R31, R35). -/
theorem memRead_eq_hold (h : memRead s a = .hold) : a = Config.ioAddr ∧ s.inQ = [] ∧ s.inClosed = false := by
  by_cases hio : a = Config.ioAddr
  · subst hio
    cases hq : s.inQ with
    | nil =>
      cases hc : s.inClosed with
      | true => rw [memRead_exhausted hq hc] at h; cases h
      | false => exact ⟨rfl, rfl, rfl⟩
    | cons c rest => rw [memRead_char hq] at h; cases h
  · by_cases ha : a < s.mem.size
    · rw [memRead_storage hio ha] at h; cases h
    · rw [memRead_outside hio (Nat.le_of_not_lt ha)] at h; cases h

theorem fetchAt_of_raise (h : memRead s a = .raise cause addr) :
    fetchAt s a = .next (s.faultedWith { cause := cause, addr := addr }) := by
  rw [fetchAt, withRead, h]
  rfl

/-! ### The console ignores storage -/

/-- A completed console read keeps storage, and takes the same character with any other storage (R33). -/
theorem memRead_console_value_setMem (m : Memory) (h : memRead s Config.ioAddr = .value w t) :
    t.mem = s.mem ∧ memRead (s.setMem m) Config.ioAddr = .value w (t.setMem m) := by
  rcases memRead_value h with ⟨hio, -⟩ | ⟨-, c, rest, hq, rfl, rfl⟩
  · exact absurd rfl hio
  · exact ⟨rfl, memRead_char (s := s.setMem m) hq⟩

theorem memRead_console_hold_setMem (m : Memory) (h : memRead s Config.ioAddr = .hold) :
    memRead (s.setMem m) Config.ioAddr = .hold := by
  obtain ⟨-, hq, hc⟩ := memRead_eq_hold h
  exact memRead_hold (s := s.setMem m) hq hc

theorem memRead_console_raise_setMem (m : Memory) (h : memRead s Config.ioAddr = .raise cause addr) :
    memRead (s.setMem m) Config.ioAddr = .raise cause addr := by
  rcases memRead_raise h with ⟨hio, -⟩ | ⟨-, hq, hc, rfl, rfl⟩
  · exact absurd rfl hio
  · exact memRead_exhausted (s := s.setMem m) hq hc

/-! ### The statements -/

/-- Settles O21: what a console access does is fixed by the input queue, its closing and the value written. -/
theorem consoleAddressNeverTouchesStorage : Obligations.ConsoleAddressNeverTouchesStorage := by
  intro s m v
  exact ⟨fun _ _ => memRead_console_value_setMem m, memRead_console_hold_setMem m,
    fun _ _ => memRead_console_raise_setMem m,
    s.emit (consoleChar v), memWrite_console v, State.emit_mem s _, memWrite_console v⟩

/-- Settles O22: the fetch faults because the read it begins with does. -/
theorem boundsCheckIsStrict : Obligations.BoundsCheckIsStrict := by
  intro s a v hio ha
  have hread : memRead s a = .raise .accessViolation a := memRead_outside hio ha
  exact ⟨hread, memWrite_outside hio ha v, fetchAt_of_raise hread⟩

end Sys2Proof.Machine
end

section
/-!
PROOFS. The opcode map (spec/30_encoding.md R52): the row of a word under the mask is its opcode times 0x1000.
-/

namespace Sys2Proof

variable {w : Word}

/-- The mask 0xF000 keeps the opcode in its place (R50, R52). -/
theorem toNat_and_rowMask (w : Word) : (w &&& 0xF000#16).toNat = opcodeOf w * 4096 := by
  have hrow : w &&& 0xF000#16 = (w >>> 12) <<< 12 :=
    (BitVec.shiftLeft_ushiftRight (x := w) (n := 12)).symm
  have hw := w.isLt
  rw [hrow, opcodeOf, BitVec.toNat_shiftLeft, BitVec.toNat_ushiftRight, Nat.shiftLeft_eq, Nat.shiftRight_eq_div_pow]
  omega

/-- In row `k` of the opcode map the opcode is `k` (R52). -/
theorem opcodeOf_of_row {top : Word} {k : Nat} (hrow : w &&& 0xF000#16 = top) (htop : top.toNat = k * 4096) :
    opcodeOf w = k := by
  have h := toNat_and_rowMask w
  rw [hrow, htop] at h
  omega

/-- Only the opcodes 0 to 7 name an instruction (R53). -/
theorem opcodeOf_le_of_decode {i : Instr} (h : decode w = .ok i) : opcodeOf w ≤ 7 := by
  unfold decode at h
  split at h
  case h_9 => cases h
  all_goals omega

/-- Settles O2: each row fixes the opcode, and decoding splits on the opcode alone. -/
theorem opcodeMapIsMatchAndMask : Obligations.OpcodeMapIsMatchAndMask := by
  intro w row a
  refine ⟨fun h => ?_, fun h => ?_, fun h => ?_, fun h => ?_, fun h => ?_, fun h => ?_, fun h => ?_, fun h => ?_,
    fun i hi => ?_⟩
  · rw [decode, opcodeOf_of_row (k := 0) h rfl]; rfl
  · rw [decode, opcodeOf_of_row (k := 1) h rfl]; rfl
  · rw [decode, opcodeOf_of_row (k := 2) h rfl]; rfl
  · rw [decode, opcodeOf_of_row (k := 3) h rfl]; rfl
  · rw [decode, opcodeOf_of_row (k := 4) h rfl]; rfl
  · rw [decode, opcodeOf_of_row (k := 5) h rfl]; rfl
  · rw [decode, opcodeOf_of_row (k := 6) h rfl]; rfl
  · rw [decode, opcodeOf_of_row (k := 7) h rfl]; rfl
  · calc row.toNat = opcodeOf w * 4096 := toNat_and_rowMask w
      _ ≤ 7 * 4096 := Nat.mul_le_mul_right _ (opcodeOf_le_of_decode hi)

end Sys2Proof
end

section
/-!
PROOFS. The two passes of the assembler (spec/30_encoding.md R62 to R72): both count a line that takes a slot
once, pass 1 by the address it gives the next label and pass 2 by the word it emits.
-/

namespace Sys2Proof.Assembler

variable {source before rest : List Line} {l name text : Line} {n addr : Nat} {table table' : LabelTable}
  {words : List Word}

/-- The number of lines that take an address slot. -/
def slotCount (source : List Line) : Nat := (source.filter fun l => takesSlot (classify l)).length

theorem slotCount_cons (l : Line) (rest : List Line) :
    slotCount (l :: rest) = (takesSlot (classify l)).toNat + slotCount rest := by
  cases h : takesSlot (classify l) <;> simp [slotCount, h, Nat.add_comm]

/-! ### Pass 1 -/

/-- What pass 1 adds to the table at a line whose address is `addr`. -/
inductive PassOneAdds (l : Line) (addr : Nat) (table : LabelTable) : LabelTable → Prop where
  /-- The line is no label line. -/
  | nothing (h : ∀ text, classify l ≠ .label text) : PassOneAdds l addr table table
  /-- The line defines `name`. -/
  | label {text name : Line} (hl : classify l = .label text) (ht : tokens text = [name]) :
    PassOneAdds l addr table ((name, addr) :: table)

theorem passOne_cons_label (hl : classify l = .label text) (ht : tokens text = [name]) :
    passOne n addr table (l :: rest) = passOne (n + 1) addr ((name, addr) :: table) rest := by
  rw [passOne, hl]
  simp only [ht]

/-- What pass 1 does at its first line, where it succeeds (R62). -/
theorem passOne_cons (h : passOne n addr table (l :: rest) = .ok table') :
    ∃ table₁, PassOneAdds l addr table table₁ ∧
      passOne (n + 1) (addr + (takesSlot (classify l)).toNat) table₁ rest = .ok table' := by
  rw [passOne] at h
  split at h
  next text hl =>
    split at h
    next name ht => exact ⟨_, .label hl ht, by rw [hl]; exact h⟩
    · cases h
  next hl =>
    refine ⟨table, .nothing hl, ?_⟩
    cases hs : takesSlot (classify l) <;> simpa [hs] using h

/-- Pass 1 comes to the lines after `before` with the address counted up by the slots of `before` (R62). -/
theorem passOne_append (h : passOne n addr table (before ++ rest) = .ok table') :
    ∃ table₁, passOne (n + before.length) (addr + slotCount before) table₁ rest = .ok table' := by
  induction before generalizing n addr table with
  | nil => exact ⟨table, h⟩
  | cons l before ih =>
    obtain ⟨table₁, -, hrest⟩ := passOne_cons h
    obtain ⟨table₂, h₂⟩ := ih hrest
    refine ⟨table₂, ?_⟩
    rw [slotCount_cons, List.length_cons, ← Nat.add_assoc addr, Nat.add_comm before.length, ← Nat.add_assoc]
    exact h₂

/-- A line that does not define `name` leaves its lookup as it was. -/
theorem PassOneAdds.lookupLabel_eq (h : PassOneAdds l addr table table')
    (hdef : ∀ text, classify l = .label text → tokens text ≠ [name]) :
    lookupLabel table' name = lookupLabel table name := by
  cases h with
  | nothing => rfl
  | @label text other hl ht =>
    have hne : name ≠ other := by
      rintro rfl
      exact hdef text hl ht
    rw [lookupLabel, List.lookup_cons, beq_false_of_ne hne]
    rfl

/-- Lines that do not define `name` leave its lookup as it was (R63). -/
theorem passOne_lookupLabel_eq (h : passOne n addr table rest = .ok table')
    (hdef : ∀ l ∈ rest, ∀ text, classify l = .label text → tokens text ≠ [name]) :
    lookupLabel table' name = lookupLabel table name := by
  induction rest generalizing n addr table with
  | nil =>
    cases h
    rfl
  | cons l rest ih =>
    obtain ⟨table₁, hadds, hrest⟩ := passOne_cons h
    rw [List.forall_mem_cons] at hdef
    rw [ih hrest hdef.2, hadds.lookupLabel_eq hdef.1]

/-- Settles O52: the definition stands at the head of the table when pass 1 comes to the lines after it, and
those leave its lookup as it is. -/
theorem lastLabelDefinitionWins : Obligations.LastLabelDefinitionWins := by
  intro before after l name text table hl ht hpass hafter
  obtain ⟨table₁, h₁⟩ := passOne_append hpass
  rw [passOne_cons_label hl ht] at h₁
  calc lookupLabel table name
      = lookupLabel ((name, 0 + slotCount before) :: table₁) name := passOne_lookupLabel_eq h₁ hafter
    _ = some (slotCount before) := by rw [Nat.zero_add]; exact List.lookup_cons_self

/-! ### Pass 2 -/

/-- A line of a class other than malformed emits a word exactly when it takes a slot (R62, R64 to R66). -/
theorem emitted_isSome {cls : LineClass} {word : Option Word} (hcls : cls ≠ .malformed)
    (h : emitted table n cls = .ok word) : word.isSome = takesSlot cls := by
  cases cls with
  | ignored => cases h; rfl
  | comment => cases h; rfl
  | label => cases h; rfl
  | numeric => cases h; rfl
  | malformed => exact absurd rfl hcls
  | character rest =>
    cases rest with
    | nil => cases h
    | cons c rest =>
      rw [emitted] at h
      split at h <;> cases h
      rfl
  | instruction m rest =>
    rw [emitted] at h
    split at h
    · cases h
    · split at h <;> cases h
      rfl
    · cases h
      rfl

/-- What pass 2 does at its first line, where it succeeds (R69). -/
theorem passTwo_cons (h : passTwo table n (l :: rest) = .ok words) :
    ∃ word tail, emitted table n (classify l) = .ok word ∧ passTwo table (n + 1) rest = .ok tail ∧
      words = word.toList ++ tail := by
  rw [passTwo] at h
  split at h <;> cases h
  next hword htail => exact ⟨_, _, hword, htail, rfl⟩
  next hword htail => exact ⟨_, _, hword, htail, rfl⟩

/-- Pass 2 emits one word for each line that takes a slot, where no line is malformed (R72). -/
theorem passTwo_length (hsource : ∀ l ∈ source, classify l ≠ .malformed)
    (h : passTwo table n source = .ok words) : words.length = slotCount source := by
  induction source generalizing n words with
  | nil =>
    cases h
    rfl
  | cons l rest ih =>
    rw [List.forall_mem_cons] at hsource
    obtain ⟨word, tail, hword, htail, rfl⟩ := passTwo_cons h
    have hslot : word.toList.length = (takesSlot (classify l)).toNat := by
      rw [← emitted_isSome hsource.1 hword]
      cases word <;> rfl
    rw [List.length_append, hslot, ih hsource.2 htail, slotCount_cons]

/-- An assembled source's words are those of pass 2 with the table of pass 1. -/
theorem assemble_ok (h : assemble source = .ok words) :
    ∃ table, passOne 0 0 [] source = .ok table ∧ passTwo table 0 source = .ok words := by
  rw [assemble] at h
  split at h
  · cases h
  next table htable => exact ⟨table, htable, h⟩

/-- Settles O51: the words are those of pass 2, whatever the label table. -/
theorem emittedWordCount : Obligations.EmittedWordCount := by
  intro source words hsource h
  obtain ⟨table, -, hwords⟩ := assemble_ok h
  exact passTwo_length hsource hwords

end Sys2Proof.Assembler
end

section
/-!
PROOFS. The controller's statements (spec/40_controller.md). A read is said once in the spec's terms (R31), and an
attempt of a transition once by the four ways it can end (R75, R80, R84).
-/

namespace Sys2Proof

variable {w : Word}

theorem opcodeOf_eq_div (w : Word) : opcodeOf w = w.toNat / 4096 := by
  rw [opcodeOf, BitVec.toNat_ushiftRight, Nat.shiftRight_eq_div_pow]

/-- The opcodes 8 to 15 are rejected by their number (R53, R55). -/
theorem decode_of_eight_le (h : 8 ≤ opcodeOf w) : decode w = .error (.illegalOpcode (opcodeOf w)) := by
  unfold decode
  split
  case h_9 => rfl
  all_goals omega

/-- The operand of a decoded instruction is the word's bits 11:0 (R49, R50). -/
theorem toNat_mod_of_decode {i : Instr} (h : decode w = .ok i) : w.toNat % 4096 = i.operandField.toNat := by
  have hfield : i.operandField = operandOf w := by
    unfold decode at h
    split at h <;> cases h <;> rfl
  rw [hfield, operandOf, BitVec.toNat_setWidth]

end Sys2Proof

namespace Sys2Proof.Machine

variable {s s' t : State} {a : Nat} {w : Word} {r : FaultRecord} {use : Word → State → StepOutcome}

/-! ### Reads in the spec's terms -/

theorem memRead_eq_value_iff : memRead s a = .value w s' ↔ s.Reads a w s' := by
  refine ⟨memRead_value, ?_⟩
  rintro (⟨hio, ha, rfl, rfl⟩ | ⟨rfl, c, rest, hq, rfl, rfl⟩)
  · exact memRead_storage hio ha
  · exact memRead_char hq

theorem memRead_eq_raise_iff : memRead s a = .raise r.cause r.addr ↔ s.ReadFaults a r := by
  constructor
  · obtain ⟨cause, addr⟩ := r
    intro h
    rcases memRead_raise h with ⟨hio, ha, rfl, rfl⟩ | ⟨hio, hq, hc, rfl, rfl⟩
    · exact .inl ⟨hio, ha, rfl⟩
    · exact .inr ⟨hio, hq, hc, rfl⟩
  · rintro (⟨hio, ha, rfl⟩ | ⟨rfl, hq, hc, rfl⟩)
    · exact memRead_outside hio ha
    · exact memRead_exhausted hq hc

theorem memRead_eq_hold_iff : memRead s a = .hold ↔ s.ReadHolds a := by
  refine ⟨memRead_eq_hold, ?_⟩
  rintro ⟨rfl, hq, hc⟩
  exact memRead_hold hq hc

/-- A read changes nothing but the input queue (R31). -/
theorem State.Reads.eq_setInQ (h : s.Reads a w s') : s' = s.setInQ s'.inQ := by
  rcases h with ⟨-, -, -, rfl⟩ | ⟨-, c, rest, -, -, rfl⟩ <;> rfl

theorem withRead_of_reads (h : s.Reads a w s') : withRead s a use = use w s' := by
  rw [withRead, memRead_eq_value_iff.mpr h]

theorem withRead_of_readFaults (h : s.ReadFaults a r) : withRead s a use = .next (s.faultedWith r) := by
  rw [withRead, memRead_eq_raise_iff.mpr h]
  rfl

theorem withRead_of_readHolds (h : s.ReadHolds a) : withRead s a use = .next s := by
  rw [withRead, memRead_eq_hold_iff.mpr h]
  rfl

theorem fetchAt_of_reads (h : s.Reads a w s') :
    fetchAt s a = .next { s' with ir := w, pc := a + 1, phase := .execute, stepCount := s.stepCount + 1 } := by
  rw [fetchAt, withRead_of_reads h, h.eq_setInQ]
  rfl

/-! ### The core's turn -/

theorem step_of_coreMoves_fetch (h : s.coreMoves) (hphase : s.phase = .fetch) : step s = fetchAt s s.pc := by
  obtain ⟨hplan, hstatus, hlimit⟩ := h
  simp [step_idle hplan, coreStep, hstatus, hlimit, hphase, fetchTransition]

theorem step_of_coreMoves_execute (h : s.coreMoves) (hphase : s.phase = .execute) :
    step s = executeTransition s := by
  obtain ⟨hplan, hstatus, hlimit⟩ := h
  simp [step_idle hplan, coreStep, hstatus, hlimit, hphase]

theorem step_of_ended (hplan : s.hostPlan = []) (hstatus : s.status ≠ .running) :
    step s = .fault (.runOver s.status) := by
  rw [step_idle hplan, coreStep, if_pos hstatus]

/-- Settles O12: the step is the fetch at PC, which ends as its read does. (The model itself has the name
`fetchTransition`.) -/
theorem step_fetchTransition : Obligations.FetchTransition := by
  intro s hmoves hphase
  rw [step_of_coreMoves_fetch hmoves hphase]
  exact ⟨fun _ _ => fetchAt_of_reads, fun _ => withRead_of_readFaults, withRead_of_readHolds⟩

/-- Settles O14: the decoder rejects the word, and the record's address is the one before PC. -/
theorem illegalOpcodeFaults : Obligations.IllegalOpcodeFaults := by
  intro s hmoves hphase hpc hop
  refine ⟨s.pc - 1, Nat.sub_add_cancel hpc, ?_⟩
  rw [step_of_coreMoves_execute hmoves hphase, executeTransition, decode_of_eight_le (by rwa [opcodeOf_eq_div])]
  rfl

/-! ### Where a transition reads -/

theorem State.not_transitionHolds_of_readAddr_none (h : s.readAddr = none) : ¬ s.TransitionHolds := by
  rintro ⟨a, ha, -⟩
  rw [h] at ha
  cases ha

/-- A transition holds exactly when the read at its address does (R84). -/
theorem State.transitionHolds_iff (h : s.readAddr = some a) : s.TransitionHolds ↔ memRead s a = .hold := by
  rw [memRead_eq_hold_iff, State.TransitionHolds, h]
  simp

/-- The address a jump to `a` reads: its target, where it is taken with the fold (R93). -/
def jumpReadAddr (s : State) (taken : Bool) (a : Operand) : Option Nat :=
  if taken ∧ s.jumpFetchFolded then some a.toNat else none

/-- The address instruction `i` reads in `s`, if it reads one. -/
def instrReadAddr (s : State) : Instr → Option Nat
  | .lda a | .add a | .sub a => some a.toNat
  | .jmp a => jumpReadAddr s true a
  | .jge a => jumpReadAddr s (jgeTaken s.acc) a
  | .jne a => jumpReadAddr s (jneTaken s.acc) a
  | .sto _ | .stp _ => none

/-- In EXECUTE the transition reads where the decoded instruction does. -/
theorem State.readAddr_of_decode {i : Instr} (hphase : s.phase = .execute) (hd : decode s.ir = .ok i) :
    s.readAddr = instrReadAddr s i := by
  have hoperand := toNat_mod_of_decode hd
  rw [State.readAddr, hphase, State.takesJump, hd, hoperand]
  cases i <;> simp [instrReadAddr, jumpReadAddr, Instr.operandField]

theorem State.readAddr_of_illegal {reject : DecodeReject} (hphase : s.phase = .execute)
    (hd : decode s.ir = .error reject) : s.readAddr = none := by
  simp [State.readAddr, State.takesJump, hphase, hd]

/-! ### How an attempt of a transition ends -/

/-- The attempt of a transition in `s` ends in the given state: exactly one of the four ends of R75, R80 and
R84. -/
inductive State.Attempt (s : State) : State → Prop where
  /-- The transition completes and counts one step. -/
  | completed {t : State} (hread : ¬ s.TransitionHolds) (hcount : t.stepCount = s.stepCount + 1)
      (hstatus : t.status = s.status ∨ t.status = .halted) (hfault : t.fault = s.fault) : s.Attempt t
  /-- The transition waits for the host. -/
  | held (hread : s.TransitionHolds) : s.Attempt s
  /-- The transition faults with nothing consumed. -/
  | faulted {r : FaultRecord} (hread : ¬ s.TransitionHolds)
      (hr : r ≠ { cause := .accOverflow, addr := 0xFFF }) : s.Attempt (s.faultedWith r)
  /-- ADD or SUB overflows with a console character, which stays consumed (R90). -/
  | overflowed {c : Byte} {rest : List Byte} (hread : ¬ s.TransitionHolds) (hphase : s.phase = .execute)
      (hir : decode s.ir = .ok (.add 0xFFF) ∨ decode s.ir = .ok (.sub 0xFFF)) (hq : s.inQ = c :: rest) :
      s.Attempt ({ s with inQ := rest }.faultedWith { cause := .accOverflow, addr := 0xFFF })

/-- A read that is held or faults ends the attempt; the rest is what is done with its word. -/
theorem State.Attempt.of_withRead (hra : s.readAddr = some a)
    (huse : ∀ w s', ¬ s.TransitionHolds → s.Reads a w s' → use w s' = .next t → s.Attempt t)
    (h : withRead s a use = .next t) : s.Attempt t := by
  have hholds := State.transitionHolds_iff hra
  rcases withRead_cases h with ⟨w, s', hr, hu⟩ | ⟨hr, rfl⟩ | ⟨cause, addr, hr, rfl⟩
  · exact huse w s' (by simp [hholds, hr]) (memRead_eq_value_iff.mp hr) hu
  · exact .held (hholds.mpr hr)
  · refine .faulted (r := ⟨cause, addr⟩) (by simp [hholds, hr]) ?_
    rcases memRead_raise hr with ⟨-, -, rfl, -⟩ | ⟨-, -, -, rfl, -⟩ <;> simp

theorem State.Attempt.of_fetchAt (hra : s.readAddr = some a) (h : fetchAt s a = .next t) : s.Attempt t := by
  refine .of_withRead hra (fun w s' hread hr hu => ?_) h
  cases hu
  rw [hr.eq_setInQ]
  exact .completed hread rfl (.inl rfl) rfl

/-- The ALU's overflow consumes nothing unless its operand was the console's character (R90). -/
theorem State.Attempt.of_aluResult {x : Int} {a : Operand} (hread : ¬ s.TransitionHolds) (hphase : s.phase = .execute)
    (hir : decode s.ir = .ok (.add a) ∨ decode s.ir = .ok (.sub a)) (hr : s.Reads a.toNat w s')
    (h : aluResult x a s' = .next t) : s.Attempt t := by
  rcases aluResult_cases h with ⟨-, rfl⟩ | ⟨-, rfl⟩
  · rw [hr.eq_setInQ]
    exact .completed hread rfl (.inl rfl) rfl
  · rcases hr with ⟨hio, -, -, rfl⟩ | ⟨hio, c, rest, hq, -, rfl⟩
    · exact .faulted (r := ⟨.accOverflow, a.toNat⟩) hread (by simpa using hio)
    · obtain rfl : a = 0xFFF := BitVec.eq_of_toNat_eq hio
      exact .overflowed hread hphase hir hq

theorem State.Attempt.of_takeJump {a : Operand} (hra : s.readAddr = jumpReadAddr s true a)
    (h : takeJump a s = .next t) : s.Attempt t := by
  rcases takeJump_cases h with ⟨hfold, hf⟩ | ⟨hfold, rfl⟩
  · exact .of_fetchAt (by simp [hra, jumpReadAddr, hfold]) hf
  · have hread := State.not_transitionHolds_of_readAddr_none (s := s) (by simp [hra, jumpReadAddr, hfold])
    exact .completed hread rfl (.inl rfl) rfl

/-- A jump that is not taken reads nothing and completes (R97). -/
theorem State.Attempt.of_fallThrough {a : Operand} (hra : s.readAddr = jumpReadAddr s false a) :
    s.Attempt (s.setPhase .fetch).tick :=
  .completed (State.not_transitionHolds_of_readAddr_none (by simp [hra, jumpReadAddr])) rfl (.inl rfl) rfl

theorem State.Attempt.of_exec {i : Instr} (hphase : s.phase = .execute) (hd : decode s.ir = .ok i)
    (h : exec i s = .next t) : s.Attempt t := by
  have hra := State.readAddr_of_decode hphase hd
  cases i with
  | lda a =>
    refine .of_withRead hra (fun w s' hread hr hu => ?_) h
    cases hu
    rw [hr.eq_setInQ]
    exact .completed hread rfl (.inl rfl) rfl
  | add a => exact .of_withRead hra (fun _ _ hread hr => .of_aluResult hread hphase (.inl hd) hr) h
  | sub a => exact .of_withRead hra (fun _ _ hread hr => .of_aluResult hread hphase (.inr hd) hr) h
  | sto a =>
    have hread := State.not_transitionHolds_of_readAddr_none hra
    rcases execSto_cases h with ⟨-, rfl⟩ | ⟨-, -, rfl⟩ | ⟨-, -, rfl⟩
    · exact .completed hread rfl (.inl rfl) rfl
    · exact .completed hread rfl (.inl rfl) rfl
    · exact .faulted (r := ⟨.accessViolation, a.toNat⟩) hread (by simp)
  | jmp a => exact .of_takeJump hra h
  | jge a =>
    rcases execJge_cases h with ⟨htaken, hj⟩ | ⟨htaken, rfl⟩ <;> rw [instrReadAddr, htaken] at hra
    · exact .of_takeJump hra hj
    · exact .of_fallThrough hra
  | jne a =>
    rcases execJne_cases h with ⟨htaken, hj⟩ | ⟨htaken, rfl⟩ <;> rw [instrReadAddr, htaken] at hra
    · exact .of_takeJump hra hj
    · exact .of_fallThrough hra
  | stp x =>
    cases h
    exact .completed (State.not_transitionHolds_of_readAddr_none hra) rfl (.inr rfl) rfl

theorem State.Attempt.of_executeTransition (hphase : s.phase = .execute) (h : executeTransition s = .next t) :
    s.Attempt t := by
  rcases executeTransition_cases h with ⟨i, hd, hx⟩ | ⟨op, hd, rfl⟩
  · exact .of_exec hphase hd hx
  · exact .faulted (r := ⟨.illegalOpcode, s.pc - 1⟩)
      (State.not_transitionHolds_of_readAddr_none (State.readAddr_of_illegal hphase hd)) (by simp)

/-- With an idle host a step is the limit's stop or an attempt of a transition (R74). -/
theorem step_idle_cases (hplan : s.hostPlan = []) (h : step s = .next t) :
    (limitReached s = true ∧ t = s.setStatus .limitReached) ∨ (limitReached s = false ∧ s.Attempt t) := by
  rw [step_idle hplan] at h
  obtain ⟨-, hlimit | ⟨hlimit, hphase, hf⟩ | ⟨hlimit, hphase, hx⟩⟩ := coreStep_cases h
  · exact .inl hlimit
  · exact .inr ⟨hlimit, .of_fetchAt (by rw [State.readAddr, hphase]) hf⟩
  · exact .inr ⟨hlimit, .of_executeTransition hphase hx⟩

/-! ### The statements about attempts -/

/-- Settles O17: the limit's stop, and each of the four ends of an attempt. -/
theorem stepCountCountsCompletedTransitions : Obligations.StepCountCountsCompletedTransitions := by
  intro s t hplan hrun h
  rcases step_idle_cases hplan h with ⟨hlimit, rfl⟩ | ⟨hlimit, hattempt⟩
  · exact ⟨fun _ => rfl, fun hno => (nomatch hlimit.symm.trans hno), fun hno => (nomatch hlimit.symm.trans hno)⟩
  · refine ⟨fun hyes => (nomatch hlimit.symm.trans hyes), fun _ hholds => ?_, fun _ hread => ?_⟩
    · cases hattempt with
      | held => rfl
      | completed hread | faulted hread | overflowed hread => exact absurd hholds hread
    · cases hattempt with
      | completed _ hcount hstatus hfault => exact .inl ⟨hcount, hrun ▸ hstatus, hfault⟩
      | held hholds => exact absurd hholds hread
      | faulted | overflowed => exact .inr ⟨rfl, rfl, _, rfl⟩

/-- Settles O18: of the ends of an attempt two set FAULTED, and both leave the host idle. -/
theorem faultsArePrecise : Obligations.FaultsArePrecise := by
  intro s t hplan hrun h hfaulted
  rcases step_idle_cases hplan h with ⟨-, rfl⟩ | ⟨-, hattempt⟩
  · cases hfaulted
  · cases hattempt with
    | completed _ _ hstatus => simp [hfaulted, hrun] at hstatus
    | held => simp [hrun] at hfaulted
    | @faulted r _ hr => exact ⟨⟨r, .inl ⟨hr, rfl⟩⟩, step_of_ended hplan (by simp [hfaulted])⟩
    | @overflowed c rest _ hphase hir hq =>
      exact ⟨⟨_, .inr ⟨rfl, hphase, hir, c, rest, hq, rfl⟩⟩, step_of_ended hplan (by simp [hfaulted])⟩

end Sys2Proof.Machine
end

section
/-!
PROOFS. LDA and STO (spec/41_load_store.md R85, R86): what each does where its access completes, faults or holds,
after the decoding of an instruction's own word and the two narrowing conversions.
-/

namespace Sys2Proof

/-- A word whose fields are an instruction's opcode and operand is read as that instruction (R50, R52). -/
theorem decode_of_encode_eq {w : Word} {i : Instr} (hw : encode i = w) (h : Laws.EncodingFields.Statement i) :
    decode w = .ok i := by
  obtain ⟨hfields, -⟩ := h
  rw [hw] at hfields
  have hlt := i.operandField.isLt
  have hopcode : opcodeOf w = i.opcodeNumber := by
    rw [opcodeOf_eq_div]
    omega
  have hoperand : operandOf w = i.operandField := by
    apply BitVec.eq_of_toNat_eq
    rw [operandOf, BitVec.toNat_setWidth]
    omega
  rw [decode, hopcode, hoperand]
  cases i <;> rfl

end Sys2Proof

namespace Sys2Proof.Machine

variable {s s' : State} {a : Operand} {w : Word}

/-! ### Conversions -/

/-- ACC holds a word's unsigned value: none is read as negative (R38). -/
theorem toInt_accOfInt_wordValue (w : Word) : (accOfInt (wordValue w)).toInt = w.toNat :=
  accValue_accOfInt (fitsAcc_wordValue w)

theorem toNat_storedWord (v : Int) : ((storedWord v).toNat : Int) = v % 65536 := by
  rw [storedWord, BitVec.toNat_ofInt]
  exact Int.toNat_of_nonneg (Int.emod_nonneg v (by decide))

theorem toNat_consoleChar (v : Int) : ((consoleChar v).toNat : Int) = v % 256 := by
  rw [consoleChar, BitVec.toNat_ofInt]
  exact Int.toNat_of_nonneg (Int.emod_nonneg v (by decide))

/-! ### The instructions, case by case -/

theorem exec_lda_of_reads (h : s.Reads a.toNat w s') :
    exec (.lda a) s =
      .next { s' with acc := accOfInt (wordValue w), phase := .fetch, stepCount := s.stepCount + 1 } := by
  rw [exec, execLda, withOperand, directAddr, withRead_of_reads h, h.eq_setInQ]
  rfl

theorem exec_sto_storage (hio : a.toNat ≠ Config.ioAddr) (ha : a.toNat < s.mem.size) :
    exec (.sto a) s =
      .next ((s.setMem (s.mem.put a.toNat (storedWord (accValue s.acc)))).setPhase .fetch).tick := by
  rw [exec, execSto, directAddr, memWrite_storage hio ha]
  rfl

theorem exec_sto_console (hio : a.toNat = Config.ioAddr) :
    exec (.sto a) s = .next ((s.emit (consoleChar (accValue s.acc))).setPhase .fetch).tick := by
  rw [exec, execSto, directAddr, hio, memWrite_console]
  rfl

theorem exec_sto_outside (hio : a.toNat ≠ Config.ioAddr) (ha : s.mem.size ≤ a.toNat) :
    exec (.sto a) s = .next (s.faultedWith { cause := .accessViolation, addr := a.toNat }) := by
  rw [exec, execSto, directAddr, memWrite_outside hio ha]
  rfl

/-! ### The statements -/

/-- Settles O25: LDA ends as its read does, and every word fits ACC as an unsigned number. -/
theorem ldaLoadsTheAccumulator : Obligations.LdaLoadsTheAccumulator := by
  intro s a
  exact ⟨decode_of_encode_eq rfl (Laws.EncodingFields.lda a),
    fun w s' h => ⟨_, exec_lda_of_reads h, toInt_accOfInt_wordValue w, rfl⟩,
    fun _ => withRead_of_readFaults, withRead_of_readHolds⟩

/-- Settles O26: STO ends as its write does, and narrowing ACC to a word or a character is reduction modulo its
width. -/
theorem stoStoresTheAccumulator : Obligations.StoStoresTheAccumulator := by
  intro s a
  refine ⟨decode_of_encode_eq rfl (Laws.EncodingFields.sto a), fun hio ha => ?_, fun hio => ?_, exec_sto_outside⟩
  · refine ⟨_, exec_sto_storage hio ha, rfl, fun hwf => ?_, fun b hb => Memory.get_put_of_ne hb.symm, rfl⟩
    rw [State.tick_mem, State.setPhase_mem, State.setMem_mem, Memory.get_put_same hwf]
    exact toNat_storedWord _
  · exact ⟨_, _, exec_sto_console hio, toNat_consoleChar _, rfl⟩

end Sys2Proof.Machine
end

section
/-!
PROOFS. ADD and SUB (spec/42_arithmetic.md R88, R89): one read, then the ALU. The word is unsigned, so a sum can
leave ACC's range only above and a difference only below (R90).
-/

namespace Sys2Proof.Machine

variable {s s' : State} {a : Operand} {w : Word} {r : Int}

/-! ### What fits ACC -/

/-- A sum never goes below ACC_MIN (R88). -/
theorem fitsAcc_add_iff (v : Acc) (w : Word) :
    fitsAcc (accValue v + wordValue w) = true ↔ v.toInt + w.toNat ≤ 2 ^ 31 - 1 := by
  have hmin := (fitsAcc_iff.mp (fitsAcc_accValue v)).1
  rw [fitsAcc_iff]
  simp only [accValue, wordValue] at hmin ⊢
  omega

/-- A difference never goes above ACC_MAX (R89). -/
theorem fitsAcc_sub_iff (v : Acc) (w : Word) :
    fitsAcc (accValue v - wordValue w) = true ↔ -2 ^ 31 ≤ v.toInt - w.toNat := by
  have hmax := (fitsAcc_iff.mp (fitsAcc_accValue v)).2
  rw [fitsAcc_iff]
  simp only [accValue, wordValue] at hmax ⊢
  omega

/-! ### The ALU's two ends, and the instructions up to the ALU -/

theorem aluResult_of_fits (hfits : fitsAcc r = true) :
    ∃ t, aluResult r a s = .next t ∧ t.acc.toInt = r ∧
      t = { s with acc := t.acc, phase := .fetch, stepCount := s.stepCount + 1 } :=
  ⟨_, if_pos hfits, accValue_accOfInt hfits, rfl⟩

theorem aluResult_of_not_fits (hfits : ¬ fitsAcc r = true) :
    aluResult r a s = .next (s.faultedWith { cause := .accOverflow, addr := a.toNat }) :=
  if_neg hfits

theorem State.Reads.stepCount_eq {addr : Nat} (h : s.Reads addr w s') : s'.stepCount = s.stepCount := by
  rw [h.eq_setInQ, State.setInQ_stepCount]

theorem State.Reads.acc_eq {addr : Nat} (h : s.Reads addr w s') : s'.acc = s.acc := by
  rw [h.eq_setInQ, State.setInQ_acc]

theorem exec_add_of_reads (h : s.Reads a.toNat w s') :
    exec (.add a) s = aluResult (accValue s.acc + wordValue w) a s' := by
  rw [exec, execAdd, withOperand, directAddr, withRead_of_reads h, h.acc_eq]

theorem exec_sub_of_reads (h : s.Reads a.toNat w s') :
    exec (.sub a) s = aluResult (accValue s.acc - wordValue w) a s' := by
  rw [exec, execSub, withOperand, directAddr, withRead_of_reads h, h.acc_eq]

/-! ### The statements -/

/-- Settles O27: after the read the ALU completes exactly when the sum fits, and only ACC_MAX bounds a sum. -/
theorem addIsExactOrOverflows : Obligations.AddIsExactOrOverflows := by
  intro s a
  refine ⟨decode_of_encode_eq rfl (Laws.EncodingFields.add a), fun w s' h => ?_,
    fun _ => withRead_of_readFaults, withRead_of_readHolds⟩
  rw [exec_add_of_reads h, ← h.stepCount_eq, ← not_le, ← fitsAcc_add_iff]
  exact ⟨aluResult_of_fits, aluResult_of_not_fits⟩

/-- Settles O28: after the read the ALU completes exactly when the difference fits, and only ACC_MIN bounds a
difference. -/
theorem subIsExactOrOverflows : Obligations.SubIsExactOrOverflows := by
  intro s a
  refine ⟨decode_of_encode_eq rfl (Laws.EncodingFields.sub a), fun w s' h => ?_,
    fun _ => withRead_of_readFaults, withRead_of_readHolds⟩
  rw [exec_sub_of_reads h, ← h.stepCount_eq, ← not_le, ← fitsAcc_sub_iff]
  exact ⟨aluResult_of_fits, aluResult_of_not_fits⟩

end Sys2Proof.Machine
end

section
/-!
PROOFS. JMP, JGE and JNE (spec/43_control_transfer.md R93 to R97): a taken jump is the same whichever instruction
takes it, and the branch conditions on ACC decide whether one is taken.
-/

namespace Sys2Proof.Machine

variable {s : State} {t : Operand} {i : Instr}

/-! ### The two ways a jump goes -/

theorem takeJump_folded (hfold : s.jumpFetchFolded = true) : takeJump t s = fetchAt s t.toNat := if_pos hfold

theorem takeJump_unfolded (hfold : s.jumpFetchFolded = false) :
    takeJump t s = .next { s with pc := t.toNat, phase := .fetch, stepCount := s.stepCount + 1 } :=
  if_neg (ne_true_of_eq_false hfold)

/-- An instruction that answers as `TakeJump(t)` does jumps to `t`: folded it ends as the fetch of the target does
(R93). -/
theorem jumpsTo_of_exec_eq_takeJump (h : exec i s = takeJump t s) : JumpsTo i t.toNat s := by
  refine ⟨fun hfold => ?_, fun hfold => h.trans (takeJump_unfolded hfold)⟩
  rw [h, takeJump_folded hfold]
  exact ⟨fun _ _ => fetchAt_of_reads, fun _ => withRead_of_readFaults, withRead_of_readHolds⟩

theorem exec_jge_of_nonneg (hacc : 0 ≤ s.acc.toInt) : exec (.jge t) s = takeJump t s :=
  if_pos (jgeTaken_iff.mpr hacc)

theorem exec_jge_of_neg (hacc : s.acc.toInt < 0) : exec (.jge t) s = fallThrough s :=
  if_neg (mt jgeTaken_iff.mp (not_le.mpr hacc))

theorem exec_jne_of_ne_zero (hacc : s.acc.toInt ≠ 0) : exec (.jne t) s = takeJump t s :=
  if_pos (jneTaken_iff.mpr hacc)

theorem exec_jne_of_eq_zero (hacc : s.acc.toInt = 0) : exec (.jne t) s = fallThrough s :=
  if_neg (mt jneTaken_iff.mp (not_not.mpr hacc))

/-! ### The statements -/

/-- Settles O29: JMP is `TakeJump` without a condition. -/
theorem jmpTakesItsJump : Obligations.JmpTakesItsJump := by
  intro s t
  exact ⟨decode_of_encode_eq rfl (Laws.EncodingFields.jmp t), jumpsTo_of_exec_eq_takeJump rfl⟩

/-- Settles O30: the sign of ACC decides between `TakeJump` and the fall-through. -/
theorem jgeJumpsUnlessNegative : Obligations.JgeJumpsUnlessNegative := by
  intro s t
  exact ⟨decode_of_encode_eq rfl (Laws.EncodingFields.jge t),
    fun hacc => jumpsTo_of_exec_eq_takeJump (exec_jge_of_nonneg hacc), exec_jge_of_neg⟩

/-- Settles O31: ACC being zero decides between the fall-through and `TakeJump`. -/
theorem jneJumpsUnlessZero : Obligations.JneJumpsUnlessZero := by
  intro s t
  exact ⟨decode_of_encode_eq rfl (Laws.EncodingFields.jne t),
    fun hacc => jumpsTo_of_exec_eq_takeJump (exec_jne_of_ne_zero hacc), exec_jne_of_eq_zero⟩

end Sys2Proof.Machine
end

section
/-!
PROOFS. STP (spec/44_system.md R100): every word whose opcode is 7 halts the core, and a core that has ended takes no
further step (R19).
-/

namespace Sys2Proof

variable {w : Word}

/-- The words 0x7000 to 0x7FFF are the instruction STP (R52, R54). -/
theorem decode_eq_stp_of_mem_row (hlo : 0x7000 ≤ w.toNat) (hhi : w.toNat ≤ 0x7FFF) :
    decode w = .ok (.stp (operandOf w)) := by
  have hopcode : opcodeOf w = 7 := by
    rw [opcodeOf_eq_div]
    omega
  rw [decode, hopcode]
  rfl

end Sys2Proof

namespace Sys2Proof.Machine

/-- STP sets STATUS and counts, in every state and for every operand (R100). -/
theorem exec_stp (s : State) (x : Operand) :
    exec (.stp x) s = .next { s with status := .halted, stepCount := s.stepCount + 1 } := rfl

/-- Settles O32: the word in IR decodes to STP, and the halt leaves the schedule empty, so that the next turn is the
core's and finds the run ended. -/
theorem stpHaltsForGood : Obligations.StpHaltsForGood := by
  refine ⟨exec_stp, fun s hmoves hphase hlo hhi => ⟨_, ?_, rfl, ?_⟩⟩
  · rw [step_of_coreMoves_execute hmoves hphase, executeTransition, decode_eq_stp_of_mem_row hlo hhi]
    exact exec_stp s _
  · obtain ⟨hplan, -, -⟩ := hmoves
    exact step_of_ended hplan (by simp)

end Sys2Proof.Machine
end

section
/-!
PROOFS. The fault record (spec/60_exceptions.md R108): what each cause records, of the fetch, of each instruction and
so of the step. That a fault keeps the registers is O18 (R80, R112).
-/

namespace Sys2Proof

variable {w : Word}

/-- A decoded instruction's opcode is the word's bits 15:12 (R49, R50). -/
theorem div_of_decode {i : Instr} (h : decode w = .ok i) : w.toNat / 4096 = i.opcodeNumber := by
  rw [← opcodeOf_eq_div]
  unfold decode at h
  split at h <;> cases h <;> assumption

/-- Only the opcodes from 8 on are rejected (R53). -/
theorem eight_le_div_of_decode_error {reject : DecodeReject} (h : decode w = .error reject) : 8 ≤ w.toNat / 4096 := by
  rw [← opcodeOf_eq_div]
  by_contra hlt
  rw [decode] at h
  interval_cases opcodeOf w <;> cases h

end Sys2Proof

namespace Sys2Proof.Machine

variable {s s' t : State} {a : Nat} {w : Word} {r : FaultRecord} {use : Word → State → StepOutcome}

/-! ### The records a state can raise -/

/-- The address a transition in `s` accesses, if it accesses one: PC in FETCH, in EXECUTE the operand of the word in
IR, which is also a jump's target (R76, R85, R86, R88, R89, R93). -/
def State.AccessesAt (s : State) (a : Nat) : Prop :=
  (s.phase = .fetch ∧ a = s.pc) ∨ (s.phase = .execute ∧ a = s.ir.toNat % 4096)

theorem State.AccessesAt.of_decode {i : Instr} (hphase : s.phase = .execute) (hd : decode s.ir = .ok i) :
    s.AccessesAt i.operandField.toNat :=
  .inr ⟨hphase, (toNat_mod_of_decode hd).symm⟩

/-- The records a transition in `s` can raise, one constructor for each cause (R103, R108). -/
inductive State.Raises (s : State) : FaultRecord → Prop where
  | accessViolation {a : Nat} (ha : s.AccessesAt a) (hio : a ≠ 0xFFF) (hsize : s.mem.size ≤ a) :
      s.Raises ⟨.accessViolation, a⟩
  | ioExhausted (hq : s.inQ = []) (hclosed : s.inClosed = true) : s.Raises ⟨.ioExhausted, 0xFFF⟩
  | illegalOpcode (hphase : s.phase = .execute) (hop : 8 ≤ s.ir.toNat / 4096) : s.Raises ⟨.illegalOpcode, s.pc - 1⟩
  | accOverflow (hphase : s.phase = .execute) (hop : s.ir.toNat / 4096 = 2 ∨ s.ir.toNat / 4096 = 3) :
      s.Raises ⟨.accOverflow, s.ir.toNat % 4096⟩

/-- A read at the transition's address raises one of the two access causes (R31, R35). -/
theorem State.Raises.of_readFaults (ha : s.AccessesAt a) (h : s.ReadFaults a r) : s.Raises r := by
  rcases h with ⟨hio, hsize, rfl⟩ | ⟨-, hq, hclosed, rfl⟩
  · exact .accessViolation ha hio hsize
  · exact .ioExhausted hq hclosed

/-! ### Every fault is one of them -/

/-- Where the transition from `s` to `t` ends FAULTED, the record in `t` is one `s` can raise. -/
def State.RecordsFault (s t : State) : Prop := t.status = .faulted → ∃ r, t.fault = some r ∧ s.Raises r

theorem State.RecordsFault.of_raises (hr : s.Raises r) (ht : t.fault = some r) : s.RecordsFault t :=
  fun _ => ⟨r, ht, hr⟩

theorem State.RecordsFault.of_not_faulted (ht : t.status ≠ .faulted) : s.RecordsFault t :=
  fun hfaulted => absurd hfaulted ht

theorem State.RecordsFault.of_running (ht : t.status = .running) : s.RecordsFault t := .of_not_faulted (by simp [ht])

theorem State.Reads.status_eq (h : s.Reads a w s') : s'.status = s.status := by
  rw [h.eq_setInQ, State.setInQ_status]

/-- A read's own fault is recorded, and a hold is none; the rest is what is done with its word. -/
theorem State.RecordsFault.of_withRead (hrun : s.status = .running) (ha : s.AccessesAt a)
    (huse : ∀ w s', s.Reads a w s' → use w s' = .next t → s.RecordsFault t) (h : withRead s a use = .next t) :
    s.RecordsFault t := by
  rcases withRead_cases h with ⟨w, s', hr, hu⟩ | ⟨-, rfl⟩ | ⟨cause, addr, hr, rfl⟩
  · exact huse w s' (memRead_eq_value_iff.mp hr) hu
  · exact .of_running hrun
  · exact .of_raises (.of_readFaults ha (memRead_eq_raise_iff (r := ⟨cause, addr⟩).mp hr)) rfl

theorem State.RecordsFault.of_fetchAt (hrun : s.status = .running) (ha : s.AccessesAt a)
    (h : fetchAt s a = .next t) : s.RecordsFault t := by
  refine .of_withRead hrun ha (fun w s' hr hu => ?_) h
  cases hu
  exact .of_running (hr.status_eq.trans hrun)

/-- The ALU records the operand that IR still holds, whether or not the read consumed a character (R90). -/
theorem State.RecordsFault.of_aluResult {x : Int} {a : Operand} (hrun : s.status = .running)
    (hphase : s.phase = .execute) (hop : s.ir.toNat / 4096 = 2 ∨ s.ir.toNat / 4096 = 3)
    (hoperand : s.ir.toNat % 4096 = a.toNat) (hr : s.Reads a.toNat w s')
    (h : aluResult x a s' = .next t) : s.RecordsFault t := by
  rcases aluResult_cases h with ⟨-, rfl⟩ | ⟨-, rfl⟩
  · exact .of_running (hr.status_eq.trans hrun)
  · exact .of_raises (hoperand ▸ .accOverflow hphase hop) rfl

theorem State.RecordsFault.of_takeJump {a : Operand} (hrun : s.status = .running) (ha : s.AccessesAt a.toNat)
    (h : takeJump a s = .next t) : s.RecordsFault t := by
  rcases takeJump_cases h with ⟨-, hf⟩ | ⟨-, rfl⟩
  · exact .of_fetchAt hrun ha hf
  · exact .of_running hrun

theorem State.RecordsFault.of_exec {i : Instr} (hrun : s.status = .running) (hphase : s.phase = .execute)
    (hd : decode s.ir = .ok i) (h : exec i s = .next t) : s.RecordsFault t := by
  have ha := State.AccessesAt.of_decode hphase hd
  have hop := div_of_decode hd
  have hoperand := toNat_mod_of_decode hd
  cases i with
  | lda a =>
    refine .of_withRead hrun ha (fun w s' hr hu => ?_) h
    cases hu
    exact .of_running (hr.status_eq.trans hrun)
  | add a => exact .of_withRead hrun ha (fun _ _ => .of_aluResult hrun hphase (.inl hop) hoperand) h
  | sub a => exact .of_withRead hrun ha (fun _ _ => .of_aluResult hrun hphase (.inr hop) hoperand) h
  | sto a =>
    rcases execSto_cases h with ⟨-, rfl⟩ | ⟨-, -, rfl⟩ | ⟨hio, hsize, rfl⟩
    · exact .of_running hrun
    · exact .of_running hrun
    · exact .of_raises (.accessViolation ha hio hsize) rfl
  | jmp a => exact .of_takeJump hrun ha h
  | jge a =>
    rcases execJge_cases h with ⟨-, hj⟩ | ⟨-, rfl⟩
    · exact .of_takeJump hrun ha hj
    · exact .of_running hrun
  | jne a =>
    rcases execJne_cases h with ⟨-, hj⟩ | ⟨-, rfl⟩
    · exact .of_takeJump hrun ha hj
    · exact .of_running hrun
  | stp x =>
    cases h
    exact .of_not_faulted (by simp)

/-- The record of a fault is one the state before it can raise (R108). -/
theorem State.RecordsFault.of_coreStep (h : coreStep s = .next t) : s.RecordsFault t := by
  obtain ⟨hrun, ⟨-, rfl⟩ | ⟨-, hphase, hf⟩ | ⟨-, hphase, hx⟩⟩ := coreStep_cases h
  · exact .of_not_faulted (by simp)
  · exact .of_fetchAt hrun (.inl ⟨hphase, rfl⟩) hf
  · rcases executeTransition_cases hx with ⟨i, hd, he⟩ | ⟨op, hd, rfl⟩
    · exact .of_exec hrun hphase hd he
    · exact .of_raises (.illegalOpcode hphase (eight_le_div_of_decode_error hd)) rfl

/-! ### The statement -/

/-- A fault changes none of the three registers, consumed character or not (R80, R108). -/
theorem registers_of_step_faulted (hplan : s.hostPlan = []) (hrun : s.status = .running) (h : step s = .next t)
    (hfaulted : t.status = .faulted) : t.pc = s.pc ∧ t.acc = s.acc ∧ t.ir = s.ir := by
  obtain ⟨⟨r, ⟨-, rfl⟩ | ⟨-, -, -, c, rest, -, rfl⟩⟩, -⟩ := faultsArePrecise s t hplan hrun h hfaulted <;>
    exact ⟨rfl, rfl, rfl⟩

/-- Settles O19: the record is one of the four that the state can raise, and the registers are kept. -/
theorem faultRecordNamesTheCause : Obligations.FaultRecordNamesTheCause := by
  intro s t hplan hrun h hfaulted
  obtain ⟨r, hr, hraises⟩ := State.RecordsFault.of_coreStep (step_idle hplan ▸ h) hfaulted
  obtain ⟨hpc, hacc, hir⟩ := registers_of_step_faulted hplan hrun h hfaulted
  refine ⟨r, hr, ?_, hpc, hacc, hir⟩
  cases hraises with
  | accessViolation ha hio hsize => exact .inl ⟨rfl, hio, hsize, ha⟩
  | ioExhausted hq hclosed => exact .inr (.inl ⟨rfl, rfl, hq, hclosed⟩)
  | illegalOpcode hphase hop => exact .inr (.inr (.inl ⟨rfl, hphase, hop, Nat.sub_add_cancel, hir⟩))
  | accOverflow hphase hop => exact .inr (.inr (.inr ⟨rfl, hphase, hop, rfl⟩))

end Sys2Proof.Machine
end

section
/-!
PROOFS. The encoding's two directions (spec/30_encoding.md R49 to R55): an instruction's word is its opcode and its
operand and nothing else, so decoding and encoding undo each other, and the words from 0x8000 on name nothing.
-/

namespace Sys2Proof

/-- What `Laws.EncodingFields` proves of each constructor, for every instruction. -/
theorem encode_fields (i : Instr) : Laws.EncodingFields.Statement i := by
  cases i with
  | lda a => exact Laws.EncodingFields.lda a
  | sto a => exact Laws.EncodingFields.sto a
  | add a => exact Laws.EncodingFields.add a
  | sub a => exact Laws.EncodingFields.sub a
  | jmp t => exact Laws.EncodingFields.jmp t
  | jge t => exact Laws.EncodingFields.jge t
  | jne t => exact Laws.EncodingFields.jne t
  | stp x => exact Laws.EncodingFields.stp x

/-- An instruction's word is its opcode above its operand (R49). -/
theorem toNat_encode (i : Instr) : (encode i).toNat = i.opcodeNumber * 4096 + i.operandField.toNat := by
  obtain ⟨hfields, -⟩ := encode_fields i
  exact hfields

/-- Every word whose opcode is at most 7 names an instruction (R53). -/
theorem exists_decode_of_opcodeOf_le {w : Word} (h : opcodeOf w ≤ 7) : ∃ i, decode w = .ok i := by
  cases hd : decode w with
  | ok i => exact ⟨i, rfl⟩
  | error reject =>
    have hop := eight_le_div_of_decode_error hd
    rw [← opcodeOf_eq_div] at hop
    omega

/-- Settles O4: the word's fields are the instruction's. -/
theorem decodeOfEncodeIsTheInstruction : Obligations.DecodeOfEncodeIsTheInstruction :=
  fun i => decode_of_encode_eq rfl (encode_fields i)

/-- Settles O5: the decoded instruction holds the word's opcode and its operand bits, and a word has no others. -/
theorem encodeOfDecodeIsTheWord : Obligations.EncodeOfDecodeIsTheWord := by
  intro w i h
  apply BitVec.eq_of_toNat_eq
  calc (encode i).toNat = i.opcodeNumber * 4096 + i.operandField.toNat := toNat_encode i
    _ = w.toNat / 4096 * 4096 + w.toNat % 4096 := by rw [div_of_decode h, toNat_mod_of_decode h]
    _ = w.toNat := Nat.div_add_mod' _ _

/-- Settles O3: 0x8000 is where the opcode becomes 8. -/
theorem wordsFrom8000AreNoInstruction : Obligations.WordsFrom8000AreNoInstruction := by
  intro w
  rw [← opcodeOf_eq_div]
  refine ⟨fun hlt => exists_decode_of_opcodeOf_le ?_, fun hle => decode_of_eight_le ?_⟩ <;>
  · rw [opcodeOf_eq_div]
    omega

/-- Settles O6: zero-extension leaves the opcode 0, and the character fits the operand. -/
theorem fetchedCharacterIsAnLda : Obligations.FetchedCharacterIsAnLda := by
  intro c
  have hc := c.isLt
  have hchar : (c.setWidth 12).toNat = c.toNat := by
    rw [BitVec.toNat_setWidth]
    omega
  refine ⟨c.setWidth 12, decode_of_encode_eq (BitVec.eq_of_toNat_eq ?_) (encode_fields _), hchar⟩
  rw [toNat_encode, Instr.opcodeNumber, Instr.operandField, hchar, Machine.wordOfChar, BitVec.toNat_setWidth]
  omega

/-- Settles O1: the ten words are concrete, and the decoder computes. -/
theorem writtenOutWordsDecode : Obligations.WrittenOutWordsDecode :=
  ⟨rfl, rfl, rfl, rfl, rfl, rfl, rfl, rfl, rfl, rfl⟩

end Sys2Proof
end

section
/-!
PROOFS. What one transition of the core and one step of the machine can do, said once and in full (spec/40_controller.md
R73 to R78): the ends of a transition with the exact state each leaves. The relation is the model's transition, no
more and no less, so the statements about every step are case analyses of it.
-/

namespace Sys2Proof.Machine

variable {s s' t : State} {a : Nat} {w : Word} {q : List Byte} {use : Word → State → StepOutcome}

/-! ### Reads that complete -/

/-- A read at `a` gives the word `w` and leaves the input queue `q` (R31, R35). It is `State.Reads` with only what the
read changes of the state after it, and looks at storage and the queue alone. -/
def State.Takes (s : State) (a : Nat) (w : Word) (q : List Byte) : Prop :=
  (a ≠ 0xFFF ∧ a < s.mem.size ∧ w = s.mem.get a ∧ q = s.inQ) ∨
  (a = 0xFFF ∧ ∃ c, s.inQ = c :: q ∧ w = wordOfChar c)

theorem State.Takes.reads (h : s.Takes a w q) : s.Reads a w { s with inQ := q } := by
  rcases h with ⟨hio, ha, hw, rfl⟩ | ⟨hio, c, hq, hw⟩
  · exact .inl ⟨hio, ha, hw, rfl⟩
  · exact .inr ⟨hio, c, q, hq, hw, rfl⟩

theorem State.Reads.takes (h : s.Reads a w s') : s.Takes a w s'.inQ := by
  rcases h with ⟨hio, ha, hw, rfl⟩ | ⟨hio, c, rest, hq, hw, rfl⟩
  · exact .inl ⟨hio, ha, hw, rfl⟩
  · exact .inr ⟨hio, c, hq, hw⟩

/-- A completed read in terms of what it takes: its state changes the queue alone. -/
theorem exists_takes_of_memRead_value (h : memRead s a = .value w s') : ∃ q, s.Takes a w q ∧ s' = s.setInQ q := by
  have hr := memRead_eq_value_iff.mp h
  exact ⟨_, hr.takes, hr.eq_setInQ⟩

/-- A read takes at most the head of the queue (R23). -/
theorem State.Takes.inQ_cases (h : s.Takes a w q) : q = s.inQ ∨ ∃ c, s.inQ = c :: q := by
  rcases h with ⟨-, -, -, hq⟩ | ⟨-, c, hq, -⟩
  · exact .inl hq
  · exact .inr ⟨c, hq⟩

theorem State.Takes.inQ_eq (h : s.Takes a w q) (hio : a ≠ 0xFFF) : q = s.inQ := by
  rcases h with ⟨-, -, -, hq⟩ | ⟨rfl, -⟩
  · exact hq
  · exact absurd rfl hio

/-! ### The instructions that read an operand -/

/-- The instruction reads the word at its operand `a` and puts `f` of ACC and that word in ACC (R85, R88, R89). -/
inductive Loads : Instr → Operand → (Acc → Word → Int) → Prop where
  | lda (a : Operand) : Loads (.lda a) a fun _ w => wordValue w
  | add (a : Operand) : Loads (.add a) a fun v w => accValue v + wordValue w
  | sub (a : Operand) : Loads (.sub a) a fun v w => accValue v - wordValue w

/-- All three go from the read to the ALU's test, which every loaded word passes (R85, R90). -/
theorem exec_of_loads {i : Instr} {a : Operand} {f : Acc → Word → Int} (hl : Loads i a f) (s : State) :
    exec i s = withRead s a.toNat fun w s' => aluResult (f s'.acc w) a s' := by
  cases hl with
  | lda =>
    have huse : (fun w s' => complete ((State.setAcc s' (accOfInt (wordValue w))).setPhase .fetch)) =
        fun w s' => aluResult (wordValue w) a s' := by
      funext w s'
      exact (if_pos (fitsAcc_wordValue w)).symm
    exact congrArg (withRead s a.toNat) huse
  | add => rfl
  | sub => rfl

/-! ### Taken jumps -/

theorem toNat_operandOf (w : Word) : (operandOf w).toNat = w.toNat % 4096 := BitVec.toNat_setWidth 12 w

theorem operandField_of_decode {i : Instr} (h : decode w = .ok i) : i.operandField = operandOf w :=
  BitVec.eq_of_toNat_eq ((toNat_mod_of_decode h).symm.trans (toNat_operandOf w).symm)

/-- A taken jump is the same whichever instruction takes it, and its target is IR's operand field (R93). -/
theorem executeTransition_of_takesJump (h : s.takesJump = true) :
    executeTransition s = takeJump (operandOf s.ir) s := by
  unfold State.takesJump at h
  split at h
  next t hd =>
    obtain rfl : t = operandOf s.ir := operandField_of_decode hd
    rw [executeTransition, hd]
    rfl
  next t hd =>
    obtain rfl : t = operandOf s.ir := operandField_of_decode hd
    rw [executeTransition, hd]
    exact if_pos h
  next t hd =>
    obtain rfl : t = operandOf s.ir := operandField_of_decode hd
    rw [executeTransition, hd]
    exact if_pos h
  · cases h

/-- The jump in IR has a condition that ACC does not meet (R97). -/
inductive State.FallsThrough (s : State) : Prop where
  | jge {t : Operand} (hir : decode s.ir = .ok (.jge t)) (hacc : jgeTaken s.acc = false)
  | jne {t : Operand} (hir : decode s.ir = .ok (.jne t)) (hacc : jneTaken s.acc = false)

theorem executeTransition_of_fallsThrough (h : s.FallsThrough) : executeTransition s = fallThrough s := by
  cases h with
  | jge hir hacc => rw [executeTransition, hir]; exact if_neg (ne_true_of_eq_false hacc)
  | jne hir hacc => rw [executeTransition, hir]; exact if_neg (ne_true_of_eq_false hacc)

/-! ### The transition -/

/-- The transition of PHASE (R74). -/
def transition (s : State) : StepOutcome :=
  match s.phase with
  | .fetch => fetchTransition s
  | .execute => executeTransition s

/-- The state after the fetch of `w` at `a`, with `q` left in the queue (R76, R93). -/
def State.fetched (s : State) (a : Nat) (w : Word) (q : List Byte) : State :=
  { s with inQ := q, ir := w, pc := a + 1, phase := .execute, stepCount := s.stepCount + 1 }

/-- The state after an instruction that the next FETCH follows (R75). -/
def State.executed (s : State) : State := { s with phase := .fetch, stepCount := s.stepCount + 1 }

/-- The core's transition in `s` ends in the given state. -/
inductive State.Transitions (s : State) : State → Prop where
  /-- FETCH (R76). -/
  | fetched {w : Word} {q : List Byte} (hphase : s.phase = .fetch) (hr : s.Takes s.pc w q) :
    s.Transitions (s.fetched s.pc w q)
  /-- A taken jump that fetches its target (R93). -/
  | jumpedFolded {w : Word} {q : List Byte} (hphase : s.phase = .execute) (hjump : s.takesJump = true)
      (hfold : s.jumpFetchFolded = true) (hr : s.Takes (s.ir.toNat % 4096) w q) :
    s.Transitions (s.fetched (s.ir.toNat % 4096) w q)
  /-- A taken jump that leaves the target to the next FETCH (R93). -/
  | jumped (hphase : s.phase = .execute) (hjump : s.takesJump = true) (hfold : s.jumpFetchFolded = false) :
    s.Transitions { s with pc := s.ir.toNat % 4096 }.executed
  /-- A jump not taken (R97). -/
  | fellThrough (hphase : s.phase = .execute) (hjump : s.FallsThrough) : s.Transitions s.executed
  /-- LDA, ADD or SUB with a result that fits ACC (R85, R88, R89). -/
  | loaded {i : Instr} {a : Operand} {f : Acc → Word → Int} {w : Word} {q : List Byte} (hphase : s.phase = .execute)
      (hir : decode s.ir = .ok i) (hl : Loads i a f) (hr : s.Takes a.toNat w q) (hfits : fitsAcc (f s.acc w) = true) :
    s.Transitions { s with inQ := q, acc := accOfInt (f s.acc w) }.executed
  /-- STO to a cell (R86). -/
  | stored {a : Operand} (hphase : s.phase = .execute) (hir : decode s.ir = .ok (.sto a)) (hio : a.toNat ≠ 0xFFF)
      (ha : a.toNat < s.mem.size) :
    s.Transitions { s with mem := s.mem.put a.toNat (storedWord (accValue s.acc)) }.executed
  /-- STO to the console (R86). -/
  | emitted (hphase : s.phase = .execute) (hir : decode s.ir = .ok (.sto 0xFFF)) :
    s.Transitions { s with outQ := s.outQ ++ [consoleChar (accValue s.acc)] }.executed
  /-- STP (R100). -/
  | halted {x : Operand} (hphase : s.phase = .execute) (hir : decode s.ir = .ok (.stp x)) :
    s.Transitions { s with status := .halted, stepCount := s.stepCount + 1 }
  /-- A read that waits for the host (R84). -/
  | held (h : s.TransitionHolds) : s.Transitions s
  /-- A read that faults (R31). -/
  | readFaulted {a : Nat} {r : FaultRecord} (ha : s.readAddr = some a) (hr : s.ReadFaults a r) :
    s.Transitions (s.faultedWith r)
  /-- STO outside storage (R86). -/
  | storeFaulted {a : Operand} (hphase : s.phase = .execute) (hir : decode s.ir = .ok (.sto a)) (hio : a.toNat ≠ 0xFFF)
      (ha : s.mem.size ≤ a.toNat) : s.Transitions (s.faultedWith ⟨.accessViolation, a.toNat⟩)
  /-- ADD or SUB with a result that does not fit ACC; the read stays made (R90). -/
  | overflowed {i : Instr} {a : Operand} {f : Acc → Word → Int} {w : Word} {q : List Byte}
      (hphase : s.phase = .execute) (hir : decode s.ir = .ok i) (hl : Loads i a f) (hr : s.Takes a.toNat w q)
      (hfits : fitsAcc (f s.acc w) = false) :
    s.Transitions ({ s with inQ := q }.faultedWith ⟨.accOverflow, a.toNat⟩)
  /-- An opcode of 8 or more (R78). -/
  | illegal {reject : DecodeReject} (hphase : s.phase = .execute) (hir : decode s.ir = .error reject) :
    s.Transitions (s.faultedWith ⟨.illegalOpcode, s.pc - 1⟩)

/-! ### Each transition is one of these -/

/-- A read at the transition's address that is held or faults ends the transition. -/
theorem State.Transitions.of_withRead (ha : s.readAddr = some a)
    (huse : ∀ w q, s.Takes a w q → use w (s.setInQ q) = .next t → s.Transitions t)
    (h : withRead s a use = .next t) : s.Transitions t := by
  rcases withRead_cases h with ⟨w, s', hr, hu⟩ | ⟨hr, rfl⟩ | ⟨cause, addr, hr, rfl⟩
  · obtain ⟨q, hq, rfl⟩ := exists_takes_of_memRead_value hr
    exact huse w q hq hu
  · exact .held ⟨a, ha, memRead_eq_hold_iff.mp hr⟩
  · exact .readFaulted ha (memRead_eq_raise_iff (r := ⟨cause, addr⟩).mp hr)

theorem State.readAddr_of_loads {i : Instr} {a : Operand} {f : Acc → Word → Int} (hphase : s.phase = .execute)
    (hir : decode s.ir = .ok i) (hl : Loads i a f) : s.readAddr = some a.toNat := by
  rw [State.readAddr_of_decode hphase hir]
  cases hl <;> rfl

/-- A taken jump with the fold reads at its target (R93). -/
theorem State.readAddr_of_takesJump (hphase : s.phase = .execute) (hjump : s.takesJump = true)
    (hfold : s.jumpFetchFolded = true) : s.readAddr = some (s.ir.toNat % 4096) := by
  rw [State.readAddr, hphase, if_pos ⟨hjump, hfold⟩]
  rw [State.takesJump] at hjump
  split at hjump
  case h_4 => cases hjump
  all_goals next hd => rw [hd]

theorem State.Transitions.of_takesJump (hphase : s.phase = .execute) (hjump : s.takesJump = true)
    (h : takeJump (operandOf s.ir) s = .next t) : s.Transitions t := by
  rcases takeJump_cases h with ⟨hfold, hf⟩ | ⟨hfold, rfl⟩ <;> rw [toNat_operandOf] at *
  · refine .of_withRead (State.readAddr_of_takesJump hphase hjump hfold) (fun w q hq hu => ?_) hf
    cases hu
    exact .jumpedFolded hphase hjump hfold hq
  · exact .jumped hphase hjump hfold

theorem State.Transitions.of_loads {i : Instr} {a : Operand} {f : Acc → Word → Int} (hphase : s.phase = .execute)
    (hir : decode s.ir = .ok i) (hl : Loads i a f) (h : exec i s = .next t) : s.Transitions t := by
  rw [exec_of_loads hl] at h
  refine .of_withRead (State.readAddr_of_loads hphase hir hl) (fun w q hq hu => ?_) h
  rcases aluResult_cases hu with ⟨hfits, rfl⟩ | ⟨hfits, rfl⟩
  · exact .loaded hphase hir hl hq hfits
  · exact .overflowed hphase hir hl hq hfits

theorem State.Transitions.of_exec {i : Instr} (hphase : s.phase = .execute) (hir : decode s.ir = .ok i)
    (h : exec i s = .next t) : s.Transitions t := by
  have hjumps : s.takesJump = true → s.Transitions t := fun hjump => by
    refine .of_takesJump hphase hjump ?_
    rw [← executeTransition_of_takesJump hjump, executeTransition, hir]
    exact h
  cases i with
  | lda a => exact .of_loads hphase hir (.lda a) h
  | add a => exact .of_loads hphase hir (.add a) h
  | sub a => exact .of_loads hphase hir (.sub a) h
  | sto a =>
    rcases execSto_cases h with ⟨hio, rfl⟩ | ⟨hio, ha, rfl⟩ | ⟨hio, ha, rfl⟩
    · obtain rfl : a = 0xFFF := BitVec.eq_of_toNat_eq hio
      exact .emitted hphase hir
    · exact .stored hphase hir hio ha
    · exact .storeFaulted hphase hir hio ha
  | jmp a => exact hjumps (by rw [State.takesJump, hir])
  | jge a =>
    rcases execJge_cases h with ⟨hacc, -⟩ | ⟨hacc, rfl⟩
    · exact hjumps (by rw [State.takesJump, hir]; exact hacc)
    · exact .fellThrough hphase (.jge hir hacc)
  | jne a =>
    rcases execJne_cases h with ⟨hacc, -⟩ | ⟨hacc, rfl⟩
    · exact hjumps (by rw [State.takesJump, hir]; exact hacc)
    · exact .fellThrough hphase (.jne hir hacc)
  | stp x =>
    cases h
    exact .halted hphase hir

theorem State.Transitions.of_transition (h : transition s = .next t) : s.Transitions t := by
  unfold transition at h
  split at h
  next hphase =>
    refine .of_withRead (by rw [State.readAddr, hphase]) (fun w q hq hu => ?_) h
    cases hu
    exact .fetched hphase hq
  next hphase =>
    rcases executeTransition_cases h with ⟨i, hir, hx⟩ | ⟨op, hir, rfl⟩
    · exact .of_exec hphase hir hx
    · exact .illegal hphase hir

/-! ### Each of these is the transition -/

theorem transition_of_fetch (hphase : s.phase = .fetch) : transition s = fetchAt s s.pc := by
  rw [transition, hphase, fetchTransition]

theorem transition_of_execute (hphase : s.phase = .execute) : transition s = executeTransition s := by
  rw [transition, hphase]

theorem transition_of_decode {i : Instr} (hphase : s.phase = .execute) (hir : decode s.ir = .ok i) :
    transition s = exec i s := by
  rw [transition_of_execute hphase, executeTransition, hir]

theorem transition_of_takesJump (hphase : s.phase = .execute) (hjump : s.takesJump = true) :
    transition s = takeJump (operandOf s.ir) s :=
  (transition_of_execute hphase).trans (executeTransition_of_takesJump hjump)

/-- The transitions that read, and where (R76, R85, R88, R89, R93). -/
theorem State.readAddr_cases (h : s.readAddr = some a) :
    (s.phase = .fetch ∧ a = s.pc) ∨
    (s.phase = .execute ∧ ∃ i b f, decode s.ir = .ok i ∧ Loads i b f ∧ a = b.toNat) ∨
    (s.phase = .execute ∧ s.takesJump = true ∧ s.jumpFetchFolded = true ∧ a = s.ir.toNat % 4096) := by
  unfold State.readAddr at h
  split at h
  next hphase => exact .inl ⟨hphase, (Option.some.inj h).symm⟩
  next hphase =>
    split at h
    next b hir => exact .inr (.inl ⟨hphase, _, b, _, hir, .lda b, (Option.some.inj h).symm⟩)
    next b hir => exact .inr (.inl ⟨hphase, _, b, _, hir, .add b, (Option.some.inj h).symm⟩)
    next b hir => exact .inr (.inl ⟨hphase, _, b, _, hir, .sub b, (Option.some.inj h).symm⟩)
    · split at h
      next hread =>
        obtain ⟨hjump, hfold⟩ := hread
        exact .inr (.inr ⟨hphase, hjump, hfold, (Option.some.inj h).symm⟩)
      · cases h

/-- A transition that reads begins with its read. -/
theorem transition_eq_withRead (ha : s.readAddr = some a) : ∃ use, transition s = withRead s a use := by
  rcases State.readAddr_cases ha with ⟨hphase, rfl⟩ | ⟨hphase, i, b, f, hir, hl, rfl⟩ | ⟨hphase, hjump, hfold, rfl⟩
  · exact ⟨_, transition_of_fetch hphase⟩
  · exact ⟨_, (transition_of_decode hphase hir).trans (exec_of_loads hl s)⟩
  · rw [transition_of_takesJump hphase hjump, takeJump_folded hfold, toNat_operandOf]
    exact ⟨_, rfl⟩

theorem fetchAt_of_takes (h : s.Takes a w q) : fetchAt s a = .next (s.fetched a w q) :=
  fetchAt_of_reads h.reads

theorem State.Transitions.transition_eq (h : s.Transitions t) : transition s = .next t := by
  cases h with
  | fetched hphase hr => rw [transition_of_fetch hphase, fetchAt_of_takes hr]
  | jumpedFolded hphase hjump hfold hr =>
    rw [transition_of_takesJump hphase hjump, takeJump_folded hfold, toNat_operandOf, fetchAt_of_takes hr]
  | jumped hphase hjump hfold =>
    rw [transition_of_takesJump hphase hjump, takeJump_unfolded hfold, toNat_operandOf]
    rfl
  | fellThrough hphase hjump =>
    rw [transition_of_execute hphase, executeTransition_of_fallsThrough hjump]
    rfl
  | loaded hphase hir hl hr hfits =>
    rw [transition_of_decode hphase hir, exec_of_loads hl, withRead_of_reads hr.reads]
    exact if_pos hfits
  | overflowed hphase hir hl hr hfits =>
    rw [transition_of_decode hphase hir, exec_of_loads hl, withRead_of_reads hr.reads]
    exact aluResult_of_not_fits (ne_true_of_eq_false hfits)
  | stored hphase hir hio ha => rw [transition_of_decode hphase hir, exec_sto_storage hio ha]; rfl
  | emitted hphase hir => rw [transition_of_decode hphase hir, exec_sto_console rfl]; rfl
  | halted hphase hir => rw [transition_of_decode hphase hir, exec_stp]
  | storeFaulted hphase hir hio ha => rw [transition_of_decode hphase hir, exec_sto_outside hio ha]
  | illegal hphase hir =>
    rw [transition_of_execute hphase, executeTransition, hir]
    rfl
  | held h =>
    obtain ⟨a, ha, hr⟩ := h
    obtain ⟨use, huse⟩ := transition_eq_withRead ha
    rw [huse, withRead_of_readHolds hr]
  | readFaulted ha hr =>
    obtain ⟨use, huse⟩ := transition_eq_withRead ha
    rw [huse, withRead_of_readFaults hr]

/-! ### Every transition answers -/

theorem aluResult_answers (r : Int) (a : Operand) (s : State) : ∃ t, aluResult r a s = .next t := by
  unfold aluResult
  split <;> exact ⟨_, rfl⟩

theorem fetchAt_answers (s : State) (a : Nat) : ∃ t, fetchAt s a = .next t := withRead_answers fun _ _ => ⟨_, rfl⟩

theorem exec_of_loads_answers {i : Instr} {a : Operand} {f : Acc → Word → Int} (hl : Loads i a f) (s : State) :
    ∃ t, exec i s = .next t := by
  rw [exec_of_loads hl]
  exact withRead_answers fun _ _ => aluResult_answers _ _ _

theorem takeJump_answers (a : Operand) (s : State) : ∃ t, takeJump a s = .next t := by
  unfold takeJump
  split
  · exact fetchAt_answers s _
  · exact ⟨_, rfl⟩

theorem exec_answers (i : Instr) (s : State) : ∃ t, exec i s = .next t := by
  cases i with
  | lda a => exact exec_of_loads_answers (.lda a) s
  | add a => exact exec_of_loads_answers (.add a) s
  | sub a => exact exec_of_loads_answers (.sub a) s
  | sto a =>
    rw [exec, execSto]
    split <;> exact ⟨_, rfl⟩
  | jmp a => exact takeJump_answers a s
  | jge a =>
    rw [exec, execJge]
    split
    · exact takeJump_answers a s
    · exact ⟨_, rfl⟩
  | jne a =>
    rw [exec, execJne]
    split
    · exact takeJump_answers a s
    · exact ⟨_, rfl⟩
  | stp x => exact ⟨_, rfl⟩

theorem transition_answers (s : State) : ∃ t, transition s = .next t := by
  unfold transition
  split
  · exact fetchAt_answers s _
  · unfold executeTransition
    split
    · exact exec_answers _ s
    · exact ⟨_, rfl⟩

/-! ### The core's turn -/

theorem coreStep_of_ended (h : s.status ≠ .running) : coreStep s = .fault (.runOver s.status) := if_pos h

theorem coreStep_of_limit (hrun : s.status = .running) (hlimit : limitReached s = true) :
    coreStep s = .next (s.setStatus .limitReached) := by
  rw [coreStep, if_neg (not_not.mpr hrun), if_pos hlimit]

theorem coreStep_of_moves (hrun : s.status = .running) (hlimit : limitReached s = false) :
    coreStep s = transition s := by
  rw [coreStep, if_neg (not_not.mpr hrun), if_neg (ne_true_of_eq_false hlimit)]
  rfl

theorem limitReached_eq_true_iff : limitReached s = true ↔ s.stepLimit ≠ 0 ∧ s.stepLimit ≤ s.stepCount :=
  decide_eq_true_iff

theorem limitReached_eq_false_iff : limitReached s = false ↔ s.stepLimit = 0 ∨ s.stepCount < s.stepLimit := by
  rw [← Bool.not_eq_true, limitReached_eq_true_iff]
  omega

/-- The core's turn answers the limit's stop or the end of its transition, and only while RUNNING (R74). -/
theorem coreStep_transitions (h : coreStep s = .next t) :
    s.status = .running ∧ ((limitReached s = true ∧ t = s.setStatus .limitReached) ∨
      (limitReached s = false ∧ s.Transitions t)) := by
  obtain ⟨hrun, ⟨hlimit, rfl⟩ | ⟨hlimit, -⟩ | ⟨hlimit, -⟩⟩ := coreStep_cases h
  · exact ⟨hrun, .inl ⟨hlimit, rfl⟩⟩
  · exact ⟨hrun, .inr ⟨hlimit, .of_transition (coreStep_of_moves hrun hlimit ▸ h)⟩⟩
  · exact ⟨hrun, .inr ⟨hlimit, .of_transition (coreStep_of_moves hrun hlimit ▸ h)⟩⟩

/-! ### The step -/

theorem step_scheduled {rest : List HostTurn} (h : s.hostPlan = .core :: rest) :
    step s = coreStep (s.setHostPlan rest) := by
  rw [step, machineStep, h]
  rfl

theorem State.CoreTurn.step_eq {s0 : State} (h : s.CoreTurn s0) : step s = coreStep s0 := by
  rcases h with ⟨hplan, rfl⟩ | ⟨rest, hplan, rfl⟩
  · exact step_idle hplan
  · exact step_scheduled hplan

/-- The next turn is a move of the host, and it leads to the given state (R121). -/
inductive State.HostMoves (s : State) : State → Prop where
  | append {c : Byte} {rest : List HostTurn} (hplan : s.hostPlan = .append c :: rest) (hopen : s.inClosed = false) :
    s.HostMoves { s with hostPlan := rest, inQ := s.inQ ++ [c] }
  /-- An append after the close (log entry 5). -/
  | appendLate {c : Byte} {rest : List HostTurn} (hplan : s.hostPlan = .append c :: rest)
      (hclosed : s.inClosed = true) : s.HostMoves { s with hostPlan := rest }
  | close {rest : List HostTurn} (hplan : s.hostPlan = .close :: rest) :
    s.HostMoves { s with hostPlan := rest, inClosed := true }

theorem State.HostMoves.step_eq (h : s.HostMoves t) : step s = .next t := by
  cases h with
  | append hplan hopen =>
    rw [step, machineStep, hplan]
    exact congrArg Host.Outcome.next (if_neg (ne_true_of_eq_false hopen))
  | appendLate hplan hclosed =>
    rw [step, machineStep, hplan]
    exact congrArg Host.Outcome.next (if_pos hclosed)
  | close hplan => rw [step, machineStep, hplan]; rfl

/-- The next turn is the host's or the core's (R73). -/
theorem State.turn_cases (s : State) : (∃ t, s.HostMoves t) ∨ ∃ s0, s.CoreTurn s0 := by
  cases hplan : s.hostPlan with
  | nil => exact .inr ⟨s, .inl ⟨hplan, rfl⟩⟩
  | cons turn rest =>
    cases turn with
    | core => exact .inr ⟨_, .inr ⟨rest, hplan, rfl⟩⟩
    | append c =>
      cases hc : s.inClosed with
      | false => exact .inl ⟨_, .append hplan hc⟩
      | true => exact .inl ⟨_, .appendLate hplan hc⟩
    | close => exact .inl ⟨_, .close hplan⟩

/-- A step is a move of the host or a turn of the core. -/
theorem step_turn (h : step s = .next t) : s.HostMoves t ∨ ∃ s0, s.CoreTurn s0 ∧ coreStep s0 = .next t := by
  rcases s.turn_cases with ⟨t', hmove⟩ | ⟨s0, hturn⟩
  · rw [hmove.step_eq] at h
    cases h
    exact .inl hmove
  · exact .inr ⟨s0, hturn, hturn.step_eq ▸ h⟩

end Sys2Proof.Machine
end

section
/-!
PROOFS. The order of the turns (spec/40_controller.md R73, R74, R82; spec/60_exceptions.md R121): which turn a step
plays, and that only the core's turn after the end of a run answers no next state.
-/

namespace Sys2Proof.Machine

variable {s t : State} {i : Instr}

/-- The core makes its turn in the same state but for the schedule. -/
theorem State.CoreTurn.exists_plan {s0 : State} (h : s.CoreTurn s0) : ∃ plan, s0 = { s with hostPlan := plan } := by
  rcases h with ⟨-, rfl⟩ | ⟨rest, -, rfl⟩
  · exact ⟨_, rfl⟩
  · exact ⟨rest, rfl⟩

theorem coreStep_answers (hrun : s.status = .running) : ∃ t, coreStep s = .next t := by
  cases hlimit : limitReached s with
  | true => exact ⟨_, coreStep_of_limit hrun hlimit⟩
  | false =>
    rw [coreStep_of_moves hrun hlimit]
    exact transition_answers s

theorem State.coreMoves.of_noLimit (hplan : s.hostPlan = []) (hrun : s.status = .running) (hlimit : s.stepLimit = 0) :
    s.coreMoves :=
  ⟨hplan, hrun, limitReached_eq_false_iff.mpr (.inl hlimit)⟩

theorem step_of_coreMoves (h : s.coreMoves) : step s = transition s := by
  obtain ⟨hplan, hrun, hlimit⟩ := h
  rw [step_idle hplan, coreStep_of_moves hrun hlimit]

/-- In EXECUTE the core's step is the instruction in IR (R77). -/
theorem step_eq_exec (h : s.coreMoves) (hphase : s.phase = .execute) (hir : decode s.ir = .ok i) :
    step s = exec i s := by
  rw [step_of_coreMoves h, transition_of_decode hphase hir]

/-- A FETCH ends as its read does (R76). -/
theorem step_fetch_of_takes {w : Word} {q : List Byte} (h : s.coreMoves) (hphase : s.phase = .fetch)
    (hr : s.Takes s.pc w q) : step s = .next (s.fetched s.pc w q) := by
  rw [step_of_coreMoves h, transition_of_fetch hphase, fetchAt_of_takes hr]

theorem step_fetch_of_readFaults {r : FaultRecord} (h : s.coreMoves) (hphase : s.phase = .fetch)
    (hr : s.ReadFaults s.pc r) : step s = .next (s.faultedWith r) := by
  rw [step_of_coreMoves h, transition_of_fetch hphase]
  exact withRead_of_readFaults hr

/-- A FETCH of a cell takes nothing from the queue (R31). -/
theorem step_fetch_cell (h : s.coreMoves) (hphase : s.phase = .fetch) (hio : s.pc ≠ 0xFFF) (hpc : s.pc < s.mem.size) :
    step s = .next (s.fetched s.pc (s.mem.get s.pc) s.inQ) :=
  step_fetch_of_takes h hphase (.inl ⟨hio, hpc, rfl, rfl⟩)

/-- Settles O13: the fetched word stands in IR, and with no limit the core moves again. -/
theorem stepRunsTheDecodedInstruction : Obligations.StepRunsTheDecodedInstruction := by
  refine ⟨fun _ _ => step_eq_exec, fun s i hmoves hlimit hphase hio hpc hir => ?_⟩
  have hfetch := step_fetch_cell hmoves hphase hio hpc
  obtain ⟨hplan, hrun, -⟩ := hmoves
  exact ⟨_, hfetch, rfl, rfl, rfl,
    step_eq_exec (.of_noLimit hplan hrun hlimit) rfl hir⟩

/-- The order of R74, in the state the turn is made in. -/
theorem coreStep_order (s : State) :
    (s.status ≠ .running → coreStep s = .fault (.runOver s.status)) ∧
    (s.status = .running → s.stepLimit ≠ 0 → s.stepLimit ≤ s.stepCount →
      coreStep s = .next { s with status := .limitReached }) ∧
    (s.status = .running → (s.stepLimit = 0 ∨ s.stepCount < s.stepLimit) → s.phase = .fetch →
      coreStep s = fetchTransition s) ∧
    (s.status = .running → (s.stepLimit = 0 ∨ s.stepCount < s.stepLimit) → s.phase = .execute →
      coreStep s = executeTransition s) := by
  refine ⟨coreStep_of_ended, fun hrun hset hreached => ?_, fun hrun hlimit hphase => ?_, fun hrun hlimit hphase => ?_⟩
  · exact coreStep_of_limit hrun (limitReached_eq_true_iff.mpr ⟨hset, hreached⟩)
  · rw [coreStep_of_moves hrun (limitReached_eq_false_iff.mpr hlimit)]
    exact transition_of_fetch hphase
  · rw [coreStep_of_moves hrun (limitReached_eq_false_iff.mpr hlimit)]
    exact transition_of_execute hphase

/-- Settles O15: the tests of a core's turn look at nothing of the schedule. -/
theorem coreStepOrder : Obligations.CoreStepOrder := by
  intro s s0 hturn
  rw [hturn.step_eq]
  obtain ⟨plan, rfl⟩ := hturn.exists_plan
  exact coreStep_order { s with hostPlan := plan }

/-- Settles O16: a move of the host answers, and so does the core's turn while RUNNING. -/
theorem onlyTheEndOfTheRunStopsTheMachine : Obligations.OnlyTheEndOfTheRunStopsTheMachine := by
  intro s
  rcases s.turn_cases with ⟨t, hmove⟩ | ⟨s0, hturn⟩
  · exact .inl ⟨t, hmove.step_eq⟩
  · have hstep := hturn.step_eq
    obtain ⟨plan, rfl⟩ := hturn.exists_plan
    by_cases hrun : s.status = .running
    · rw [hstep]
      exact .inl (coreStep_answers hrun)
    · refine .inr ⟨hrun, hstep.trans (coreStep_of_ended hrun), ?_⟩
      exact hturn.imp And.left fun ⟨rest, hplan, _⟩ => ⟨rest, hplan⟩

/-- Settles O20: the core's turn answers only while RUNNING, so the step is a move of the host. -/
theorem endedRunIsFrozen : Obligations.EndedRunIsFrozen := by
  intro s t hended h
  rcases step_turn h with hmove | ⟨s0, hturn, hcore⟩
  · cases hmove <;> rfl
  · obtain ⟨plan, rfl⟩ := hturn.exists_plan
    obtain ⟨hrun, -⟩ := coreStep_transitions hcore
    exact absurd hrun hended

/-- Settles O43: the three moves of the host. -/
theorem hostMovesTouchOnlyTheInput : Obligations.HostMovesTouchOnlyTheInput :=
  fun _ _ _ => ⟨fun hplan hopen => (State.HostMoves.append hplan hopen).step_eq,
    fun hplan hclosed => (State.HostMoves.appendLate hplan hclosed).step_eq,
    fun hplan => (State.HostMoves.close hplan).step_eq⟩

end Sys2Proof.Machine
end

section
/-!
PROOFS. The invariant of every run: a launch meets it (spec/70_reset_and_hazards.md R124 to R126) and every step keeps
it (spec/10_state.md R13, R14, R20; spec/40_controller.md R74, R80, R81).
-/

namespace Sys2Proof.Machine

variable {s t : State} {a : Nat} {w : Word} {q : List Byte} {r : FaultRecord}

/-! ### The launch -/

theorem cellsGet_imageCells {image : List Word} {n : Nat} (lo : Nat) (h : n < image.length) :
    cellsGet (imageCells lo image) (lo + n) = image[n] := by
  induction image generalizing lo n with
  | nil => cases h
  | cons w rest ih =>
    cases n with
    | zero => exact cellsGet_consCell_same (imageCells_wf le_rfl)
    | succ n =>
      have hrest : n < rest.length := Nat.lt_of_succ_lt_succ h
      calc cellsGet (imageCells lo (w :: rest)) (lo + (n + 1))
          = cellsGet (imageCells (lo + 1) rest) (lo + (n + 1)) := cellsGet_consCell_of_ne (by omega) w _
        _ = cellsGet (imageCells (lo + 1) rest) (lo + 1 + n) := congrArg _ (by omega)
        _ = rest[n] := ih (lo + 1) hrest

/-- Word `n` of the image stands in cell `n` (R125). -/
theorem Memory.get_ofImage {image : List Word} {n : Nat} (h : n < image.length) :
    (Memory.ofImage image).get n = image[n] := by
  have hget := cellsGet_imageCells 0 h
  rwa [Nat.zero_add] at hget

theorem launch_coreMoves {l : LaunchInputs} (hplan : l.hostPlan = []) : (launch l).coreMoves :=
  ⟨hplan, rfl, limitReached_eq_false_iff.mpr (Nat.eq_zero_or_pos _)⟩

/-- Settles O7: but for storage's cells the launch's state is written out. -/
theorem launchStartsInTheResetState : Obligations.LaunchStartsInTheResetState :=
  fun _ => ⟨rfl, rfl, rfl, rfl, rfl, rfl, rfl, rfl, rfl, rfl, rfl, fun _ => Memory.get_ofImage⟩

/-- Settles O8: the first step is a FETCH at 0, which the empty image does not hold. -/
theorem firstTransitionFetchesWordZero : Obligations.FirstTransitionFetchesWordZero := by
  intro l hplan
  have hmoves := launch_coreMoves hplan
  refine ⟨fun w rest himage => ⟨_, ?_, rfl⟩, fun himage => ⟨_, ?_, rfl⟩⟩
  · have hlen : 0 < l.image.length := by simp [himage]
    have hword : (launch l).mem.get 0 = w := (Memory.get_ofImage hlen).trans (by simp [himage])
    rw [step_fetch_cell hmoves rfl (show 0 ≠ 0xFFF by decide) hlen, ← hword]
    rfl
  · exact step_fetch_of_readFaults hmoves rfl
      (.inl ⟨show 0 ≠ 0xFFF by decide, by simp [launch, Memory.ofImage, himage], rfl⟩)

/-- Settles O10: the loaded storage is canonical, and the limit is not passed at count 0. -/
theorem everyLaunchMeetsTheInvariant : Obligations.EveryLaunchMeetsTheInvariant := fun l =>
  { mem_wf := Memory.ofImage_wf l.image
    pc_bounded := Nat.zero_le _
    pc_pos := nofun
    fault_iff := ⟨fun h => absurd rfl h, nofun⟩
    fault_fits := nofun
    halted_by_stp := nofun
    limit_status := nofun
    limit_kept := fun _ => Nat.zero_le _ }

/-- Settles O9: reset is the launch of the empty image, so that O10 covers it. -/
theorem resetMeetsTheInvariant : Obligations.ResetMeetsTheInvariant :=
  ⟨everyLaunchMeetsTheInvariant ⟨[], 0, true, [], false, []⟩, rfl⟩

/-! ### What keeps the invariant -/

/-- Only the record of an ended input speaks of the input, so the input may change where that record stays true. -/
theorem State.Inv.of_input (h : s.Inv) {closed : Bool} {plan : List HostTurn}
    (hended : s.inQ = [] → s.inClosed = true → q = [] ∧ closed = true) :
    ({ s with inQ := q, inClosed := closed, hostPlan := plan } : State).Inv :=
  { h with
    fault_fits := fun r hr => by
      obtain ⟨cause, addr⟩ := r
      have hfits := h.fault_fits _ hr
      cases cause with
      | ioExhausted =>
        obtain ⟨haddr, hq, hc⟩ := hfits
        exact ⟨haddr, hended hq hc⟩
      | accessViolation | illegalOpcode | accOverflow => exact hfits }

theorem State.Inv.of_hostMoves (h : s.Inv) (hmove : s.HostMoves t) : t.Inv := by
  cases hmove with
  | append hplan hopen => exact h.of_input fun _ hclosed => by simp [hopen] at hclosed
  | appendLate => exact h.of_input .intro
  | close => exact h.of_input fun hq _ => ⟨hq, rfl⟩

theorem State.Inv.fault_eq_none (h : s.Inv) (hrun : s.status = .running) : s.fault = none := by
  by_contra hne
  have hfaulted := h.fault_iff.mp hne
  rw [hrun] at hfaulted
  cases hfaulted

theorem State.Inv.of_limitReached (h : s.Inv) (hrun : s.status = .running) (hlimit : limitReached s = true) :
    (s.setStatus .limitReached).Inv :=
  { h with
    fault_iff := ⟨fun hne => absurd (h.fault_eq_none hrun) hne, nofun⟩
    halted_by_stp := nofun
    limit_status := fun _ => hlimit }

/-- A fault keeps the invariant where its record fits the state (R80). -/
theorem State.Inv.of_faulted (h : s.Inv) (hr : r.fits s) : (s.faultedWith r).Inv :=
  { h with
    fault_iff := ⟨fun _ => rfl, fun _ => nofun⟩
    fault_fits := fun r' hr' => by
      cases hr'
      exact hr
    halted_by_stp := nofun
    limit_status := nofun }

/-- What every completed transition does to the controller's own state (R75). -/
structure State.Counts (s t : State) : Prop where
  stepCount_eq : t.stepCount = s.stepCount + 1
  stepLimit_eq : t.stepLimit = s.stepLimit
  fault_eq : t.fault = s.fault

/-- A completed transition comes before the limit, so that its step is not past it. -/
theorem State.Counts.limit_kept (h : s.Counts t) (hlimit : limitReached s = false) :
    t.stepLimit ≠ 0 → t.stepCount ≤ t.stepLimit := by
  have hbelow := limitReached_eq_false_iff.mp hlimit
  rw [h.stepCount_eq, h.stepLimit_eq]
  omega

/-- A completed transition that does not halt keeps the invariant where it leaves storage and PC as they must be. -/
theorem State.Inv.of_completed (h : s.Inv) (hrun : s.status = .running) (hlimit : limitReached s = false)
    (hcounts : s.Counts t) (hstatus : t.status = .running) (hmem : t.mem.wf = true)
    (hpc : t.pc ≤ max 4096 t.mem.size) (hpos : t.phase = .execute → 1 ≤ t.pc) : t.Inv := by
  have hfault : t.fault = none := hcounts.fault_eq.trans (h.fault_eq_none hrun)
  exact
    { mem_wf := hmem
      pc_bounded := hpc
      pc_pos := hpos
      fault_iff := by simp [hfault, hstatus]
      fault_fits := by simp [hfault]
      halted_by_stp := by simp [hstatus]
      limit_status := by simp [hstatus]
      limit_kept := hcounts.limit_kept hlimit }

/-- A completed read lies below 4096 or below MEM_SIZE. -/
theorem State.Takes.lt_max (h : s.Takes a w q) : a < max 4096 s.mem.size := by
  rcases h with ⟨-, ha, -⟩ | ⟨rfl, -⟩ <;> omega

theorem FaultRecord.fits_of_readFaults (h : s.ReadFaults a r) : r.fits s := by
  rcases h with ⟨hio, ha, rfl⟩ | ⟨-, hq, hc, rfl⟩
  · exact ⟨hio, ha⟩
  · exact ⟨rfl, hq, hc⟩

theorem State.Inv.of_fetched (h : s.Inv) (hrun : s.status = .running) (hlimit : limitReached s = false)
    (hr : s.Takes a w q) : (s.fetched a w q).Inv :=
  h.of_completed hrun hlimit ⟨rfl, rfl, rfl⟩ hrun h.mem_wf hr.lt_max fun _ => Nat.le_add_left 1 a

theorem State.Inv.of_transitions (h : s.Inv) (hrun : s.status = .running) (hlimit : limitReached s = false)
    (ht : s.Transitions t) : t.Inv := by
  cases ht with
  | fetched _ hr | jumpedFolded _ _ _ hr => exact h.of_fetched hrun hlimit hr
  | jumped =>
    refine h.of_completed hrun hlimit ⟨rfl, rfl, rfl⟩ hrun h.mem_wf ?_ nofun
    exact (Nat.mod_lt _ (by decide)).le.trans (le_max_left 4096 _)
  | stored _ _ _ ha =>
    exact h.of_completed hrun hlimit ⟨rfl, rfl, rfl⟩ hrun (Memory.put_wf ha h.mem_wf) h.pc_bounded nofun
  | fellThrough | loaded | emitted =>
    exact h.of_completed hrun hlimit ⟨rfl, rfl, rfl⟩ hrun h.mem_wf h.pc_bounded nofun
  | halted hphase hir =>
    have hcounts : s.Counts { s with status := .halted, stepCount := s.stepCount + 1 } := ⟨rfl, rfl, rfl⟩
    exact
      { h with
        fault_iff := ⟨fun hne => absurd (h.fault_eq_none hrun) hne, nofun⟩
        halted_by_stp := fun _ => ⟨hphase, _, hir⟩
        limit_status := nofun
        limit_kept := hcounts.limit_kept hlimit }
  | held => exact h
  | readFaulted _ hr => exact h.of_faulted (FaultRecord.fits_of_readFaults hr)
  | storeFaulted _ _ hio ha => exact h.of_faulted ⟨hio, ha⟩
  | illegal hphase hir =>
    have hop := eight_le_div_of_decode_error hir
    refine h.of_faulted ⟨Nat.sub_add_cancel (h.pc_pos hphase), decide_eq_false ?_, hphase⟩
    omega
  | @overflowed _ a _ _ q hphase _ _ hr =>
    have hq : ({ s with inQ := q } : State).Inv := h.of_input fun hempty hclosed => by
      rcases hr.inQ_cases with rfl | ⟨c, hc⟩
      · exact ⟨hempty, hclosed⟩
      · simp [hempty] at hc
    exact hq.of_faulted ⟨Nat.le_of_lt_succ a.isLt, hphase⟩

theorem State.Inv.of_coreStep (h : s.Inv) (hcore : coreStep s = .next t) : t.Inv := by
  obtain ⟨hrun, ⟨hlimit, rfl⟩ | ⟨hlimit, ht⟩⟩ := coreStep_transitions hcore
  · exact h.of_limitReached hrun hlimit
  · exact h.of_transitions hrun hlimit ht

/-- Settles O11: a move of the host changes the input alone, the core's turn is made in a state that differs in the
schedule alone, and each end of a transition keeps the invariant. -/
theorem everyStepKeepsTheInvariant : Obligations.EveryStepKeepsTheInvariant := by
  intro s t h hstep
  rcases step_turn hstep with hmove | ⟨s0, hturn, hcore⟩
  · exact h.of_hostMoves hmove
  · obtain ⟨plan, rfl⟩ := hturn.exists_plan
    have h0 : ({ s with hostPlan := plan } : State).Inv := h.of_input .intro
    exact h0.of_coreStep hcore

end Sys2Proof.Machine
end

section
/-!
PROOFS. What may change which piece of state (spec/10_state.md R13 to R16, R22 to R27): each rule about every step picks
the ends of a transition that touch its field.
-/

namespace Sys2Proof.Machine

variable {s t : State} {i : Instr} {a : Operand}

/-! ### From a step to its transition -/

/-- A piece of state that neither the host nor the end of the run touches changes only by a transition of the core. -/
theorem exists_transitions_of_ne {α : Type} {f : State → α}
    (hf : ∀ (u : State) (status : Status) (q : List Byte) (closed : Bool) (plan : List HostTurn),
      f { u with status := status, inQ := q, inClosed := closed, hostPlan := plan } = f u)
    (h : step s = .next t) (hne : f t ≠ f s) : ∃ plan, ({ s with hostPlan := plan } : State).Transitions t := by
  rcases step_turn h with hmove | ⟨s0, hturn, hcore⟩
  · cases hmove with
    | append | appendLate | close => exact absurd (hf s _ _ _ _) hne
  · obtain ⟨plan, rfl⟩ := hturn.exists_plan
    obtain ⟨-, ⟨-, rfl⟩ | ⟨-, ht⟩⟩ := coreStep_transitions hcore
    · exact absurd (hf s _ _ _ _) hne
    · exact ⟨plan, ht⟩

/-! ### The registers -/

/-- ACC changes only by an instruction that loads it, to the value computed (R15). -/
theorem loads_of_acc_ne (h : step s = .next t) (hne : t.acc ≠ s.acc) :
    s.phase = .execute ∧ ∃ i a f w, decode s.ir = .ok i ∧ Loads i a f ∧ t.acc.toInt = f s.acc w := by
  obtain ⟨plan, ht⟩ := exists_transitions_of_ne (f := State.acc) (fun _ _ _ _ _ => rfl) h hne
  cases ht with
  | loaded hphase hir hl hr hfits => exact ⟨hphase, _, _, _, _, hir, hl, accValue_accOfInt hfits⟩
  | _ => exact absurd rfl hne

/-- Settles O36: the instructions that load ACC are the three. -/
theorem onlyLdaAddSubWriteAcc : Obligations.OnlyLdaAddSubWriteAcc := by
  intro s t h hne
  obtain ⟨hphase, i, a, f, w, hir, hl, -⟩ := loads_of_acc_ne h hne
  refine ⟨hphase, a, ?_⟩
  cases hl with
  | lda => exact .inl hir
  | add => exact .inr (.inl hir)
  | sub => exact .inr (.inr hir)

/-- Settles O37: a word is not negative, so LDA gives no negative value and ADD none from ACC >= 0. -/
theorem onlySubMakesAccNegative : Obligations.OnlySubMakesAccNegative := by
  intro s t h hpos hneg
  have hne : t.acc ≠ s.acc := by
    intro heq
    rw [heq] at hneg
    omega
  obtain ⟨hphase, i, a, f, w, hir, hl, hacc⟩ := loads_of_acc_ne h hne
  cases hl with
  | lda =>
    simp only [wordValue] at hacc
    omega
  | add =>
    simp only [accValue, wordValue] at hacc
    omega
  | sub => exact ⟨hphase, a, hir⟩

/-- Settles O38: a fetch and an unfolded jump set PC, and nothing else does. -/
theorem pcChangesOnlyByFetchAndTakenJump : Obligations.PcChangesOnlyByFetchAndTakenJump := by
  intro s t h hne
  obtain ⟨plan, ht⟩ := exists_transitions_of_ne (f := State.pc) (fun _ _ _ _ _ => rfl) h hne
  cases ht with
  | fetched hphase => exact .inl ⟨hphase, rfl⟩
  | jumpedFolded hphase hjump hfold => exact .inr (.inl ⟨hphase, hjump, hfold, rfl⟩)
  | jumped hphase hjump hfold => exact .inr (.inr ⟨hphase, hjump, hfold, rfl⟩)
  | _ => exact absurd rfl hne

/-- Settles O39: a fetch sets IR to the word its read takes, and nothing else does. -/
theorem irChangesOnlyByFetch : Obligations.IrChangesOnlyByFetch := by
  intro s t h hne
  obtain ⟨plan, ht⟩ := exists_transitions_of_ne (f := State.ir) (fun _ _ _ _ _ => rfl) h hne
  cases ht with
  | fetched hphase hr => exact ⟨_, State.Takes.reads (s := s) hr, .inl ⟨hphase, rfl⟩⟩
  | jumpedFolded hphase hjump hfold hr =>
    exact ⟨_, State.Takes.reads (s := s) hr, .inr ⟨hphase, hjump, hfold, rfl⟩⟩
  | _ => exact absurd rfl hne

/-! ### Storage and the streams -/

/-- Settles O40: of the ends of a transition one writes a cell and one emits, and both are STO's. -/
theorem onlyStoWritesStorageAndOutput : Obligations.OnlyStoWritesStorageAndOutput := by
  intro s t h
  refine ⟨fun hne => ?_, fun hne => ?_⟩
  · obtain ⟨plan, ht⟩ := exists_transitions_of_ne (f := State.mem) (fun _ _ _ _ _ => rfl) h hne
    cases ht with
    | stored hphase hir hio ha => exact ⟨hphase, _, hir, hio, ha, fun b hb => Memory.get_put_of_ne hb.symm⟩
    | _ => exact absurd rfl hne
  · obtain ⟨plan, ht⟩ := exists_transitions_of_ne (f := State.outQ) (fun _ _ _ _ _ => rfl) h hne
    cases ht with
    | emitted hphase hir => exact ⟨hphase, hir, rfl⟩
    | _ => exact absurd rfl hne

/-- A transition takes at most the head of the queue (R23). -/
theorem State.Transitions.inQ_cases (h : s.Transitions t) : t.inQ = s.inQ ∨ ∃ c, s.inQ = c :: t.inQ := by
  cases h with
  | fetched _ hr | jumpedFolded _ _ _ hr | loaded _ _ _ hr | overflowed _ _ _ hr => exact hr.inQ_cases
  | _ => exact .inl rfl

/-- What no transition changes of the launch's inputs and of the input's closing (R23, R27). -/
theorem State.Transitions.inputs_eq (h : s.Transitions t) :
    t.inClosed = s.inClosed ∧ t.mem.size = s.mem.size ∧ t.stepLimit = s.stepLimit ∧
      t.jumpFetchFolded = s.jumpFetchFolded := by
  cases h <;> exact ⟨rfl, rfl, rfl, rfl⟩

/-- The core's turn keeps the closing and takes at most the head of the queue. -/
theorem State.CoreTurn.input_eq {s0 : State} (h : s.CoreTurn s0) (hcore : coreStep s0 = .next t) :
    (t.inQ = s.inQ ∨ ∃ c, s.inQ = c :: t.inQ) ∧ t.inClosed = s.inClosed := by
  obtain ⟨plan, rfl⟩ := h.exists_plan
  obtain ⟨-, ⟨-, rfl⟩ | ⟨-, ht⟩⟩ := coreStep_transitions hcore
  · exact ⟨.inl rfl, rfl⟩
  · obtain ⟨hclosed, -⟩ := ht.inputs_eq
    exact ⟨ht.inQ_cases, hclosed⟩

/-- A schedule whose next turn is the host's gives the core no turn. -/
theorem State.HostMoves.not_core (h : s.HostMoves t) : ¬(s.hostPlan = [] ∨ ∃ rest, s.hostPlan = .core :: rest) := by
  cases h with
  | append hplan | appendLate hplan | close hplan => simp [hplan]

/-- Settles O41: the host appends to an open input alone, and no turn opens a closed one. -/
theorem inputIsTakenFromItsHead : Obligations.InputIsTakenFromItsHead := by
  intro s t h
  rcases step_turn h with hmove | ⟨s0, hturn, hcore⟩
  · refine ⟨fun hcore => absurd hcore hmove.not_core, fun hclosed => ?_⟩
    cases hmove with
    | append _ hopen => simp [hopen] at hclosed
    | appendLate => exact ⟨hclosed, .inl rfl⟩
    | close => exact ⟨rfl, .inl rfl⟩
  · obtain ⟨hq, hclosed⟩ := hturn.input_eq hcore
    exact ⟨fun _ => ⟨hq, hclosed⟩, fun hc => ⟨hclosed.trans hc, hq⟩⟩

/-- Settles O42: no turn sets them, and a store keeps storage's size. -/
theorem launchInputsNeverChange : Obligations.LaunchInputsNeverChange := by
  intro s t h
  rcases step_turn h with hmove | ⟨s0, hturn, hcore⟩
  · cases hmove <;> exact ⟨rfl, rfl, rfl⟩
  · obtain ⟨plan, rfl⟩ := hturn.exists_plan
    obtain ⟨-, ⟨-, rfl⟩ | ⟨-, ht⟩⟩ := coreStep_transitions hcore
    · exact ⟨rfl, rfl, rfl⟩
    · obtain ⟨-, hsame⟩ := ht.inputs_eq
      exact hsame

/-! ### The instructions' frames -/

/-- What an instruction that reads at `a`, and writes no storage and no output, leaves as it was: all but PC, ACC, IR,
PHASE and the queue's head, and the queue too where `a` is not the console. -/
def State.ReadFrame (s : State) (a : Nat) (t : State) : Prop :=
  s.mem.Same t.mem ∧ t.outQ = s.outQ ∧ s.SameInputs t ∧ s.SameController t ∧
    (a ≠ 0xFFF → t.inQ = s.inQ) ∧ (t.inQ = s.inQ ∨ ∃ c, s.inQ = c :: t.inQ)

section ReadFrame

variable {addr pc : Nat} {acc : Acc} {ir w : Word} {phase : Phase} {q : List Byte} {r : FaultRecord}

theorem State.ReadFrame.of_held : s.ReadFrame addr s :=
  ⟨⟨rfl, fun _ => rfl⟩, rfl, ⟨rfl, rfl, rfl, rfl, rfl⟩, .inl ⟨rfl, rfl, .inr rfl⟩, fun _ => rfl, .inl rfl⟩

theorem State.ReadFrame.of_readFaulted : s.ReadFrame addr (s.faultedWith r) :=
  ⟨⟨rfl, fun _ => rfl⟩, rfl, ⟨rfl, rfl, rfl, rfl, rfl⟩, .inr ⟨rfl, ⟨r, rfl⟩, rfl, rfl⟩, fun _ => rfl, .inl rfl⟩

theorem State.ReadFrame.of_overflowed (hr : s.Takes addr w q) :
    s.ReadFrame addr ({ s with inQ := q }.faultedWith r) :=
  ⟨⟨rfl, fun _ => rfl⟩, rfl, ⟨rfl, rfl, rfl, rfl, rfl⟩, .inr ⟨rfl, ⟨r, rfl⟩, rfl, rfl⟩, hr.inQ_eq, hr.inQ_cases⟩

theorem State.ReadFrame.of_completed (hr : s.Takes addr w q) :
    s.ReadFrame addr
      { s with inQ := q, pc := pc, acc := acc, ir := ir, phase := phase, stepCount := s.stepCount + 1 } :=
  ⟨⟨rfl, fun _ => rfl⟩, rfl, ⟨rfl, rfl, rfl, rfl, rfl⟩, .inl ⟨rfl, rfl, .inl rfl⟩, hr.inQ_eq, hr.inQ_cases⟩

/-- A transition that reads nothing takes nothing. -/
theorem State.ReadFrame.of_executed : s.ReadFrame addr { s with pc := pc }.executed :=
  ⟨⟨rfl, fun _ => rfl⟩, rfl, ⟨rfl, rfl, rfl, rfl, rfl⟩, .inl ⟨rfl, rfl, .inl rfl⟩, fun _ => rfl, .inl rfl⟩

end ReadFrame

/-- Settles O33: the read changes the queue alone, and the ALU changes ACC or raises. -/
theorem loadAndArithmeticFrame : Obligations.LoadAndArithmeticFrame := by
  intro s t i a hi h
  obtain ⟨f, hl⟩ : ∃ f, Loads i a f := by
    rcases hi with rfl | rfl | rfl
    · exact ⟨_, .lda a⟩
    · exact ⟨_, .add a⟩
    · exact ⟨_, .sub a⟩
  rw [exec_of_loads hl] at h
  rcases withRead_cases h with ⟨w, s', hr, hu⟩ | ⟨-, rfl⟩ | ⟨cause, addr, -, rfl⟩
  · obtain ⟨q, hq, rfl⟩ := exists_takes_of_memRead_value hr
    rcases aluResult_cases hu with ⟨-, rfl⟩ | ⟨-, rfl⟩
    · exact ⟨rfl, rfl, State.ReadFrame.of_completed hq⟩
    · exact ⟨rfl, rfl, State.ReadFrame.of_overflowed hq⟩
  · exact ⟨rfl, rfl, State.ReadFrame.of_held⟩
  · exact ⟨rfl, rfl, State.ReadFrame.of_readFaulted⟩

/-- Settles O34: of STO's three ends one emits, one writes its cell and one raises. -/
theorem stoFrame : Obligations.StoFrame := by
  intro s t a h
  rcases execSto_cases h with ⟨hio, rfl⟩ | ⟨hio, ha, rfl⟩ | ⟨hio, ha, rfl⟩
  · exact ⟨rfl, rfl, rfl, rfl, ⟨rfl, rfl, rfl, rfl, rfl⟩, .inl ⟨rfl, rfl, .inl rfl⟩, fun _ _ _ _ => rfl,
      fun hne => absurd hio hne, fun _ => ⟨rfl, fun _ => rfl⟩⟩
  · refine ⟨rfl, rfl, rfl, rfl, ⟨rfl, rfl, rfl, rfl, rfl⟩, .inl ⟨rfl, rfl, .inl rfl⟩, ?_, fun _ => rfl,
      fun heq => absurd heq hio⟩
    rintro addr rfl b hb
    exact Memory.get_put_of_ne hb.symm
  · exact ⟨rfl, rfl, rfl, rfl, ⟨rfl, rfl, rfl, rfl, rfl⟩, .inr ⟨rfl, ⟨_, rfl⟩, rfl, rfl⟩, fun _ _ _ _ => rfl,
      fun _ => rfl, fun heq => absurd heq hio⟩

/-- A jump fetches its target, which needs the fold, or goes on to a FETCH (R93, R97). -/
theorem exec_jump_cases (hi : i = .jmp a ∨ i = .jge a ∨ i = .jne a) (h : exec i s = .next t) :
    (s.jumpFetchFolded = true ∧ fetchAt s a.toNat = .next t) ∨ ∃ pc, t = { s with pc := pc }.executed := by
  have hjump : takeJump a s = .next t ∨ t = s.executed := by
    rcases hi with rfl | rfl | rfl
    · exact .inl h
    · exact (execJge_cases h).imp And.right And.right
    · exact (execJne_cases h).imp And.right And.right
  rcases hjump with hj | rfl
  · exact (takeJump_cases hj).imp_right fun ⟨_, ht⟩ => ⟨_, ht⟩
  · exact .inr ⟨s.pc, rfl⟩

theorem jump_readFrame (hi : i = .jmp a ∨ i = .jge a ∨ i = .jne a) (h : exec i s = .next t) :
    t.acc = s.acc ∧ s.ReadFrame a.toNat t ∧ (s.jumpFetchFolded = false → t.ir = s.ir ∧ t.inQ = s.inQ) := by
  rcases exec_jump_cases hi h with ⟨hfold, hf⟩ | ⟨pc, rfl⟩
  · refine and_assoc.mp ⟨?_, fun hunfolded => by simp [hfold] at hunfolded⟩
    rcases fetchAt_cases hf with ⟨w, s', hr, rfl⟩ | ⟨-, rfl⟩ | ⟨cause, addr, -, rfl⟩
    · obtain ⟨q, hq, rfl⟩ := exists_takes_of_memRead_value hr
      exact ⟨rfl, .of_completed hq⟩
    · exact ⟨rfl, .of_held⟩
    · exact ⟨rfl, .of_readFaulted⟩
  · exact ⟨rfl, .of_executed, fun _ => ⟨rfl, rfl⟩⟩

/-- Settles O35: a jump that fetches changes the queue by its read, and any other changes PC and PHASE alone. -/
theorem jumpFrame : Obligations.JumpFrame := by
  intro s t i a hi h
  obtain ⟨hacc, ⟨hmem, hout, hinputs, hcontroller, hio, hhead⟩, hunfolded⟩ := jump_readFrame hi h
  exact ⟨hacc, hmem, hout, hinputs, hcontroller, hio, hhead, hunfolded⟩

end Sys2Proof.Machine
end

section
/-!
PROOFS. STEP_COUNT and the tally of a run (spec/70_reset_and_hazards.md R132, R133): two transitions for each
instruction executed, and with the fold one less for each taken jump.
-/

namespace Sys2Proof.Machine

variable {s t : State} {k : Tally} {i : Instr}

/-! ### The instructions that take no jump -/

theorem State.takesJump_of_fallsThrough (h : s.FallsThrough) : s.takesJump = false := by
  cases h with
  | jge hir hacc => rw [State.takesJump, hir]; exact hacc
  | jne hir hacc => rw [State.takesJump, hir]; exact hacc

theorem State.takesJump_of_loads {a : Operand} {f : Acc → Word → Int} (hir : decode s.ir = .ok i)
    (hl : Loads i a f) : s.takesJump = false := by
  rw [State.takesJump, hir]
  cases hl <;> rfl

theorem State.takesJump_of_sto {a : Operand} (hir : decode s.ir = .ok (.sto a)) : s.takesJump = false := by
  rw [State.takesJump, hir]

theorem State.takesJump_of_stp {x : Operand} (hir : decode s.ir = .ok (.stp x)) : s.takesJump = false := by
  rw [State.takesJump, hir]

/-! ### What keeps the tally in step -/

/-- A step that counts nothing, and neither halts nor changes PHASE, leaves the tally fitting. -/
theorem Tally.Fits.of_uncounted (h : k.Fits s) (hcount : t.stepCount = s.stepCount) (hphase : t.phase = s.phase)
    (hhalted : t.status = .halted ↔ s.status = .halted) (hfold : t.jumpFetchFolded = s.jumpFetchFolded) :
    (k.after s t).Fits t := by
  have hafter : k.after s t = k := if_neg (by simp [hcount])
  rw [hafter]
  refine ⟨?_, fun ht => ?_⟩
  · simpa only [hcount, hphase, hfold, ne_eq, hhalted] using h.count
  · rw [hphase]
    exact h.halted (hhalted.mp ht)

/-- A FETCH counts one step and leaves an EXECUTE to come. -/
theorem Tally.Fits.of_fetched (h : k.Fits s) (hphase : s.phase = .fetch) (hrun : s.status = .running) (a : Nat)
    (w : Word) (q : List Byte) : (k.after s (s.fetched a w q)).Fits (s.fetched a w q) := by
  have hafter : k.after s (s.fetched a w q) = k := if_neg (by simp [hphase])
  have hcount := h.count
  rw [hafter]
  refine ⟨?_, fun _ => rfl⟩
  simp only [State.fetched, hphase, hrun] at hcount ⊢
  simp at hcount ⊢
  omega

/-- The jumps a completed EXECUTE adds to the tally. -/
def State.jumpCount (s : State) : Nat := if s.takesJump then 1 else 0

/-- A completed EXECUTE counts one step and one instruction; it leaves no EXECUTE to come but where a jump was taken
with the fold. -/
theorem Tally.Fits.of_executed (h : k.Fits s) (hphase : s.phase = .execute) (hrun : s.status = .running)
    (hcount : t.stepCount = s.stepCount + 1) (hfold : t.jumpFetchFolded = s.jumpFetchFolded)
    (hhalted : t.status = .halted → t.phase = .execute)
    (hnext : (if t.phase = .execute ∧ t.status ≠ .halted then 1 else 0) =
      if s.jumpFetchFolded then s.jumpCount else 0) : (k.after s t).Fits t := by
  have hafter : k.after s t = ⟨k.instrs + 1, k.jumps + s.jumpCount⟩ := if_pos ⟨hphase, hcount⟩
  have hs := h.count
  rw [hafter]
  refine ⟨?_, hhalted⟩
  rw [hnext, hcount, hfold]
  simp only [hphase, hrun] at hs
  cases hf : s.jumpFetchFolded <;> simp [hf] at hs ⊢ <;> omega

/-- An EXECUTE that takes no jump and goes on to a FETCH. -/
theorem Tally.Fits.of_goesOn (h : k.Fits s) (hphase : s.phase = .execute) (hrun : s.status = .running)
    (hjump : s.takesJump = false) (hstatus : t.status = .running) (hcount : t.stepCount = s.stepCount)
    (hfold : t.jumpFetchFolded = s.jumpFetchFolded) : (k.after s t.executed).Fits t.executed :=
  h.of_executed hphase hrun (congrArg (· + 1) hcount) hfold (by simp [State.executed, hstatus])
    (by simp [State.executed, State.jumpCount, hjump])

theorem Tally.Fits.of_transitions (h : k.Fits s) (hrun : s.status = .running) (ht : s.Transitions t) :
    (k.after s t).Fits t := by
  cases ht with
  | fetched hphase => exact h.of_fetched hphase hrun _ _ _
  | jumpedFolded hphase hjump hfold =>
    exact h.of_executed hphase hrun rfl rfl (fun _ => rfl) (by simp [State.fetched, hrun, hfold, State.jumpCount, hjump])
  | jumped hphase hjump hfold =>
    exact h.of_executed hphase hrun rfl rfl (by simp [State.executed, hrun]) (by simp [State.executed, hfold])
  | fellThrough hphase hjump => exact h.of_goesOn hphase hrun (State.takesJump_of_fallsThrough hjump) hrun rfl rfl
  | loaded hphase hir hl => exact h.of_goesOn hphase hrun (State.takesJump_of_loads hir hl) hrun rfl rfl
  | stored hphase hir | emitted hphase hir => exact h.of_goesOn hphase hrun (State.takesJump_of_sto hir) hrun rfl rfl
  | halted hphase hir =>
    exact h.of_executed hphase hrun rfl rfl (fun _ => hphase) (by simp [State.jumpCount, State.takesJump_of_stp hir])
  | held => exact h.of_uncounted rfl rfl Iff.rfl rfl
  | readFaulted | storeFaulted | illegal | overflowed =>
    exact h.of_uncounted rfl rfl (by simp [State.faultedWith, hrun]) rfl

theorem Tally.Fits.of_coreStep (h : k.Fits s) (hcore : coreStep s = .next t) : (k.after s t).Fits t := by
  obtain ⟨hrun, ⟨-, rfl⟩ | ⟨-, ht⟩⟩ := coreStep_transitions hcore
  · exact h.of_uncounted rfl rfl (by simp [hrun]) rfl
  · exact h.of_transitions hrun ht

/-- Settles O56: a move of the host counts nothing, and neither the tally nor what it is held to sees the schedule. -/
theorem everyStepKeepsTheTally : Obligations.EveryStepKeepsTheTally := by
  intro s t k h hstep
  rcases step_turn hstep with hmove | ⟨s0, hturn, hcore⟩
  · cases hmove <;> exact h.of_uncounted rfl rfl Iff.rfl rfl
  · obtain ⟨plan, rfl⟩ := hturn.exists_plan
    have h0 : k.Fits { s with hostPlan := plan } := ⟨h.count, h.halted⟩
    exact h0.of_coreStep hcore

/-! ### The count of a run -/

/-- A run keeps the tally fitting and the setting as it is. -/
theorem tallyRun_fits {n : Nat} {k' : Tally} (h : k.Fits s) (hrun : tallyRun n s k = some (t, k')) :
    k'.Fits t ∧ t.jumpFetchFolded = s.jumpFetchFolded := by
  induction n generalizing s k with
  | zero =>
    cases hrun
    exact ⟨h, rfl⟩
  | succ n ih =>
    rw [tallyRun] at hrun
    split at hrun
    next u hstep =>
      obtain ⟨hfits, hfold⟩ := ih (everyStepKeepsTheTally s u k h hstep) hrun
      obtain ⟨-, -, hsame⟩ := launchInputsNeverChange s u hstep
      exact ⟨hfits, hfold.trans hsame⟩
    · cases hrun

theorem launch_fits (l : LaunchInputs) : Tally.Fits ⟨0, 0⟩ (launch l) := ⟨(Nat.zero_add _).trans (ite_self 0), nofun⟩

/-- Settles O46: the launch's tally fits, and at the halt no EXECUTE is to come. -/
theorem stepCountOfAHaltedRun : Obligations.StepCountOfAHaltedRun := by
  intro l n t k hrun hhalted
  obtain ⟨hfits, hfold⟩ := tallyRun_fits (launch_fits l) hrun
  have hcount := hfits.count
  have hlaunch : (launch l).jumpFetchFolded = l.jumpFetchFolded := rfl
  simp only [hfold, hlaunch, hhalted] at hcount
  exact ⟨fun hf => by simpa [hf] using hcount, fun hf => by simpa [hf] using hcount⟩

end Sys2Proof.Machine
end

section
/-!
PROOFS. Two steps on end, and one step under two settings: what a store leaves for the next fetch and load
(spec/20_memory.md), the hold and its end (R35, R84), and the schedule and the fold, which show in no transition but a
taken jump (spec/70_reset_and_hazards.md R130).
-/

namespace Sys2Proof.Machine

variable {s t : State} {a : Operand} {i : Instr} {f : Acc → Word → Int}

/-! ### An instruction after an instruction -/

theorem exec_loads_cell (hl : Loads i a f) (hio : a.toNat ≠ 0xFFF) (ha : a.toNat < s.mem.size)
    (hfits : fitsAcc (f s.acc (s.mem.get a.toNat)) = true) :
    exec i s = .next { s with acc := accOfInt (f s.acc (s.mem.get a.toNat)) }.executed := by
  have hr : s.Takes a.toNat (s.mem.get a.toNat) s.inQ := .inl ⟨hio, ha, rfl, rfl⟩
  rw [exec_of_loads hl, withRead_of_reads hr.reads]
  exact if_pos hfits

/-- Settles O23: the store's word stands in the cell, and the next fetch reads the cell. -/
theorem storeIsSeenByTheVeryNextFetch : Obligations.StoreIsSeenByTheVeryNextFetch := by
  intro s a hwf hmoves hlimit hphase hir hpc hio hsize
  have hstore := step_eq_exec hmoves hphase hir
  rw [exec_sto_storage (hpc ▸ hio) (hpc ▸ hsize)] at hstore
  obtain ⟨hplan, hrun, -⟩ := hmoves
  refine ⟨_, _, hstore, step_fetch_cell (.of_noLimit hplan hrun hlimit) rfl hio hsize, ?_, rfl⟩
  have hget (v : Word) : (s.mem.put a.toNat v).get s.pc = v := hpc ▸ Memory.get_put_same hwf
  exact hget _

/-- Settles O24: the cell holds ACC modulo 2^16, and a load is unsigned. -/
theorem storeThenLoadGivesAccModWord : Obligations.StoreThenLoadGivesAccModWord := by
  intro s a hwf hio ha
  refine ⟨_, _, exec_sto_storage hio ha, exec_loads_cell (.lda a) hio ha (fitsAcc_wordValue _), ?_⟩
  rw [State.executed, toInt_accOfInt_wordValue, State.tick_mem, State.setPhase_mem, State.setMem_mem,
    Memory.get_put_same hwf]
  exact toNat_storedWord _

/-- Settles O47: the sum fits, so that ACC holds it exactly, and the difference is the old value. -/
theorem addThenSubRestoresAcc : Obligations.AddThenSubRestoresAcc := by
  intro s a hio ha hle
  have hsum := (fitsAcc_add_iff s.acc (s.mem.get a.toNat)).mpr hle
  have hback : accValue (accOfInt (accValue s.acc + wordValue (s.mem.get a.toNat))) - wordValue (s.mem.get a.toNat) =
      accValue s.acc := by
    rw [accValue_accOfInt hsum]
    omega
  refine ⟨_, _, exec_loads_cell (.add a) hio ha hsum, exec_loads_cell (.sub a) hio ha ?_, ?_⟩
  · exact (congrArg fitsAcc hback).trans (fitsAcc_accValue s.acc)
  · simp only [State.executed, hback, accOfInt_accValue]

/-! ### The hold -/

/-- A machine whose step changes nothing stays as it is. -/
theorem run_of_step_eq_self {M : Host.Core} {s : M.State} (h : M.step s = .next s) (n : Nat) : M.run n s = .next s := by
  induction n with
  | zero => rfl
  | succ n ih =>
    rw [Host.Core.run, h]
    exact ih

/-- Settles O44: the held read is repeated, reads the appended character, and faults at the closed input. -/
theorem holdIsLiftedOnlyByTheHost : Obligations.HoldIsLiftedOnlyByTheHost := by
  intro s c hmoves hphase hholds
  have hheld : step s = .next s := by rw [step_of_coreMoves_fetch hmoves hphase]; exact withRead_of_readHolds hholds
  obtain ⟨hpc, hq, hopen⟩ := hholds
  obtain ⟨hplan, hrun, hlimit⟩ := hmoves
  obtain ⟨happend, -, -⟩ := hostMovesTouchOnlyTheInput { s with hostPlan := [.append c] } c []
  obtain ⟨-, -, hclose⟩ := hostMovesTouchOnlyTheInput { s with hostPlan := [.close] } c []
  refine ⟨hheld, run_of_step_eq_self (M := core) hheld, ⟨_, _, happend rfl hopen, ?_, rfl⟩, ⟨_, _, hclose rfl, ?_, rfl⟩⟩
  · refine (step_fetch_of_takes (s := { s with hostPlan := [], inQ := s.inQ ++ [c] }) ⟨rfl, hrun, hlimit⟩ hphase
      (.inr ⟨hpc, c, congrArg (· ++ [c]) hq, rfl⟩)).trans ?_
    simp [State.fetched, hpc, hq, hplan, wordOfChar]
  · refine (step_fetch_of_readFaults (s := { s with hostPlan := [], inClosed := true }) ⟨rfl, hrun, hlimit⟩ hphase
      (.inr ⟨hpc, hq, rfl, rfl⟩)).trans ?_
    simp [State.faultedWith, hplan]

/-! ### The settings -/

/-- The state with another schedule and another setting of the fold. -/
def State.withSettings (s : State) (plan : List HostTurn) (fold : Bool) : State :=
  { s with hostPlan := plan, jumpFetchFolded := fold }

/-- The setting of the fold does not show in `s`: it is the same, or no jump is taken (R93). -/
def State.FoldUnseen (s : State) (fold : Bool) : Prop :=
  fold = s.jumpFetchFolded ∨ ¬(s.phase = .execute ∧ s.takesJump = true)

variable {plan : List HostTurn} {fold : Bool}

theorem State.FoldUnseen.eq_of_takesJump (h : s.FoldUnseen fold) (hphase : s.phase = .execute)
    (hjump : s.takesJump = true) : fold = s.jumpFetchFolded :=
  h.resolve_right (not_not.mpr ⟨hphase, hjump⟩)

theorem State.FoldUnseen.readAddr_eq (h : s.FoldUnseen fold) (plan : List HostTurn) :
    (s.withSettings plan fold).readAddr = s.readAddr := by
  rcases h with rfl | hjump
  · rfl
  · have hsame : (s.withSettings plan fold).takesJump = s.takesJump := rfl
    cases hphase : s.phase with
    | fetch => simp [State.readAddr, State.withSettings, hphase]
    | execute =>
      have hno : s.takesJump = false := by simpa [hphase] using hjump
      simp only [State.readAddr, hsame, hno]
      simp [State.withSettings]

theorem State.FallsThrough.withSettings (h : s.FallsThrough) (plan : List HostTurn) (fold : Bool) :
    (s.withSettings plan fold).FallsThrough := by
  cases h with
  | jge hir hacc => exact .jge hir hacc
  | jne hir hacc => exact .jne hir hacc

/-- A transition in which the fold is unseen is the same under the other settings. -/
theorem State.Transitions.withSettings (h : s.Transitions t) (plan : List HostTurn) (hfold : s.FoldUnseen fold) :
    (s.withSettings plan fold).Transitions (t.withSettings plan fold) := by
  cases h with
  | fetched hphase hr => exact .fetched hphase hr
  | jumpedFolded hphase hjump hset hr =>
    exact .jumpedFolded hphase hjump ((hfold.eq_of_takesJump hphase hjump).trans hset) hr
  | jumped hphase hjump hset =>
    exact .jumped hphase hjump ((hfold.eq_of_takesJump hphase hjump).trans hset)
  | fellThrough hphase hjump => exact .fellThrough hphase (hjump.withSettings plan fold)
  | loaded hphase hir hl hr hfits => exact .loaded hphase hir hl hr hfits
  | stored hphase hir hio ha => exact .stored hphase hir hio ha
  | emitted hphase hir => exact .emitted hphase hir
  | halted hphase hir => exact .halted hphase hir
  | held h =>
    obtain ⟨a, ha, hr⟩ := h
    exact .held ⟨a, (hfold.readAddr_eq plan).trans ha, hr⟩
  | readFaulted ha hr => exact .readFaulted ((hfold.readAddr_eq plan).trans ha) hr
  | storeFaulted hphase hir hio ha => exact .storeFaulted hphase hir hio ha
  | overflowed hphase hir hl hr hfits => exact .overflowed hphase hir hl hr hfits
  | illegal hphase hir => exact .illegal hphase hir

theorem State.Transitions.hostPlan_eq (h : s.Transitions t) : t.hostPlan = s.hostPlan := by
  cases h <;> rfl

/-! ### The schedule -/

/-- The core's turn does the same whatever is left of the schedule (R73). -/
theorem coreStep_withPlan (h : coreStep s = .next t) (plan : List HostTurn) :
    coreStep { s with hostPlan := plan } = .next { t with hostPlan := plan } := by
  obtain ⟨hrun, ⟨hlimit, rfl⟩ | ⟨hlimit, ht⟩⟩ := coreStep_transitions h
  · exact coreStep_of_limit (s := { s with hostPlan := plan }) hrun hlimit
  · have ht' := ht.withSettings plan (.inl rfl)
    refine (coreStep_of_moves (s := { s with hostPlan := plan }) hrun hlimit).trans (ht'.transition_eq.trans ?_)
    obtain ⟨-, -, -, hfold⟩ := ht.inputs_eq
    rw [State.withSettings, ← hfold]

theorem coreStep_fault {r : Fault} (h : coreStep s = .fault r) : s.status ≠ .running ∧ r = .runOver s.status := by
  by_cases hrun : s.status = .running
  · obtain ⟨t, ht⟩ := coreStep_answers hrun
    rw [ht] at h
    cases h
  · rw [coreStep_of_ended hrun] at h
    cases h
    exact ⟨hrun, rfl⟩

/-- Settles O55: both are the core's turn, made in states that differ in the schedule alone. -/
theorem scheduledCoreTurnIsTheIdleStep : Obligations.ScheduledCoreTurnIsTheIdleStep := by
  intro s rest hplan
  have hidle : step { s with hostPlan := [] } = coreStep { s with hostPlan := [] } := step_idle rfl
  rw [hidle, step_scheduled hplan]
  refine ⟨fun t ht => coreStep_withPlan ht rest, fun r hr => ?_⟩
  obtain ⟨hended, rfl⟩ := coreStep_fault hr
  exact coreStep_of_ended (s := s.setHostPlan rest) hended

/-! ### The fold -/

/-- A transition that takes no jump is the same with the fold and without. -/
theorem step_unfolded_of_no_jump (hmoves : s.coreMoves) (hjump : ¬(s.phase = .execute ∧ s.takesJump = true))
    (h : step s = .next t) : step { s with jumpFetchFolded := false } = .next { t with jumpFetchFolded := false } := by
  rw [step_of_coreMoves hmoves] at h
  have ht := State.Transitions.of_transition h
  refine (step_of_coreMoves (s := { s with jumpFetchFolded := false }) hmoves).trans
    ((ht.withSettings (fold := false) s.hostPlan (.inr hjump)).transition_eq.trans ?_)
  rw [State.withSettings, ← ht.hostPlan_eq]

/-- The state after an unfolded taken jump (R93). -/
def State.jumpedUnfolded (s : State) : State :=
  { s with jumpFetchFolded := false, pc := s.ir.toNat % 4096 }.executed

theorem step_unfolded_of_jump (hmoves : s.coreMoves) (hphase : s.phase = .execute) (hjump : s.takesJump = true) :
    step { s with jumpFetchFolded := false } = .next s.jumpedUnfolded := by
  have ht : State.Transitions { s with jumpFetchFolded := false } s.jumpedUnfolded := .jumped hphase hjump rfl
  exact (step_of_coreMoves (s := { s with jumpFetchFolded := false }) hmoves).trans ht.transition_eq

theorem step_jumpedUnfolded (hmoves : s.coreMoves) (hlimit : s.stepLimit = 0) :
    step s.jumpedUnfolded = fetchAt s.jumpedUnfolded (s.ir.toNat % 4096) := by
  obtain ⟨hplan, hrun, -⟩ := hmoves
  have hmoves' : s.jumpedUnfolded.coreMoves := .of_noLimit hplan hrun hlimit
  exact step_of_coreMoves_fetch hmoves' rfl

/-- The end of the folded jump `t` and the end `v` of the FETCH after the unfolded one (R130). -/
structure State.JumpsAgree (s t v : State) : Prop where
  held : s.ReadHolds (s.ir.toNat % 4096) → t = s ∧ v = s.jumpedUnfolded
  fetched : t.stepCount = s.stepCount + 1 →
    t.status = .running ∧ v = { t with jumpFetchFolded := false, stepCount := t.stepCount + 1 }
  faulted : t.status = .faulted →
    v = { t with jumpFetchFolded := false, stepCount := t.stepCount + 1, phase := .fetch, pc := s.ir.toNat % 4096 }

/-- The two fetches of the target read the same storage and the same input, so they end alike. -/
theorem exists_jumpsAgree (hrun : s.status = .running) (h : fetchAt s (s.ir.toNat % 4096) = .next t) :
    ∃ v, fetchAt s.jumpedUnfolded (s.ir.toNat % 4096) = .next v ∧ s.JumpsAgree t v := by
  rcases fetchAt_cases h with ⟨w, s', hr, rfl⟩ | ⟨hr, rfl⟩ | ⟨cause, addr, hr, rfl⟩
  · obtain ⟨q, hq, rfl⟩ := exists_takes_of_memRead_value hr
    refine ⟨_, fetchAt_of_takes (s := s.jumpedUnfolded) hq, fun hholds => ?_, fun _ => ⟨hrun, rfl⟩, fun hfaulted => ?_⟩
    · rw [memRead_eq_hold_iff.mpr hholds] at hr
      cases hr
    · cases hrun.symm.trans hfaulted
  · have hholds := memRead_eq_hold_iff.mp hr
    refine ⟨_, withRead_of_readHolds (s := t.jumpedUnfolded) hholds, fun _ => ⟨rfl, rfl⟩, fun hcount => ?_,
      fun hfaulted => ?_⟩
    · omega
    · cases hrun.symm.trans hfaulted
  · have hfaults := memRead_eq_raise_iff (r := ⟨cause, addr⟩).mp hr
    refine ⟨_, withRead_of_readFaults (s := s.jumpedUnfolded) hfaults, fun hholds => ?_, fun hcount => ?_, fun _ => rfl⟩
    · rw [memRead_eq_hold_iff.mpr hholds] at hr
      cases hr
    · exact absurd hcount (Nat.succ_ne_self _).symm

/-- Settles O45: only a taken jump sees the fold, and both ways it fetches its target, at once or in the next FETCH. -/
theorem foldedAndUnfoldedJumpsAgree : Obligations.FoldedAndUnfoldedJumpsAgree := by
  intro s t hmoves hlimit hfold h
  refine ⟨fun hjump => step_unfolded_of_no_jump hmoves hjump h, fun ⟨hphase, hjump⟩ => ?_⟩
  rw [step_of_coreMoves hmoves, transition_of_takesJump hphase hjump, takeJump_folded hfold, toNat_operandOf] at h
  have hjumps := step_unfolded_of_jump hmoves hphase hjump
  have hfetches := step_jumpedUnfolded hmoves hlimit
  obtain ⟨-, hrun, -⟩ := hmoves
  obtain ⟨v, hv, hagree⟩ := exists_jumpsAgree hrun h
  exact ⟨_, v, hjumps, hfetches.trans hv, rfl, hagree.held, hagree.fetched, hagree.faulted⟩

end Sys2Proof.Machine
end

section
/-!
PROOFS. The machine-code file (spec/30_encoding.md R58, R59): a digit is read as the value it spells and no other
character is read, so a word's line and an image's file are the only ones read as they are.
-/

namespace Sys2Proof.ImageFile

variable {w : Word} {line : List Char}

/-! ### Digits -/

theorem hexDigitValue_hexDigit {n : Nat} (h : n < 16) : hexDigitValue (hexDigit n) = some n := by
  have hall : ∀ n < 16, hexDigitValue (hexDigit n) = some n := by decide
  exact hall n h

/-- Only the digit of a value below 16 is read as that value (R58). -/
theorem eq_hexDigit_of_hexDigitValue {c : Char} {n : Nat} (h : hexDigitValue c = some n) : n < 16 ∧ c = hexDigit n := by
  unfold hexDigitValue at h
  split at h
  next hdigit =>
    cases h
    have hlt : c.toNat - 48 < 10 := by omega
    have hback : 48 + (c.toNat - 48) = c.toNat := by omega
    exact ⟨by omega, by rw [hexDigit, if_pos hlt, hback, Char.ofNat_toNat]⟩
  next =>
    split at h
    next hletter =>
      cases h
      have hge : ¬ c.toNat - 87 < 10 := by omega
      have hback : 87 + (c.toNat - 87) = c.toNat := by omega
      exact ⟨by omega, by rw [hexDigit, if_neg hge, hback, Char.ofNat_toNat]⟩
    · cases h

/-- The sixteen digits (R58). -/
def hexDigits : List Char := ['0', '1', '2', '3', '4', '5', '6', '7', '8', '9', 'a', 'b', 'c', 'd', 'e', 'f']

/-- The digit of a value below 16 stands at that place among the digits. -/
theorem some_hexDigit {n : Nat} (h : n < 16) : some (hexDigit n) = hexDigits[n]? := by
  have hall : ∀ n < 16, some (hexDigit n) = hexDigits[n]? := by decide
  exact hall n h

/-! ### Lines -/

/-- The line of the word that four digits spell. -/
theorem renderWord_ofNat {a b c d : Nat} (ha : a < 16) (hb : b < 16) (hc : c < 16) (hd : d < 16) :
    renderWord (BitVec.ofNat 16 (a * 4096 + b * 256 + c * 16 + d)) =
      [hexDigit a, hexDigit b, hexDigit c, hexDigit d] := by
  have hn : (BitVec.ofNat 16 (a * 4096 + b * 256 + c * 16 + d)).toNat = a * 4096 + b * 256 + c * 16 + d := by
    rw [BitVec.toNat_ofNat]
    omega
  have h3 : (a * 4096 + b * 256 + c * 16 + d) / 4096 % 16 = a := by omega
  have h2 : (a * 4096 + b * 256 + c * 16 + d) / 256 % 16 = b := by omega
  have h1 : (a * 4096 + b * 256 + c * 16 + d) / 16 % 16 = c := by omega
  have h0 : (a * 4096 + b * 256 + c * 16 + d) % 16 = d := by omega
  rw [renderWord, hn, h3, h2, h1, h0]

theorem parseWord_of_digits {a b c d : Nat} (h : line.map hexDigitValue = [some a, some b, some c, some d]) :
    parseWord line = some (BitVec.ofNat 16 (a * 4096 + b * 256 + c * 16 + d)) := by
  rw [parseWord, h]

theorem parseWord_renderWord (w : Word) : parseWord (renderWord w) = some w := by
  have hw := w.isLt
  have hdigits : (renderWord w).map hexDigitValue =
      [some (w.toNat / 4096 % 16), some (w.toNat / 256 % 16), some (w.toNat / 16 % 16), some (w.toNat % 16)] := by
    simp [renderWord, hexDigitValue_hexDigit, Nat.mod_lt]
  rw [parseWord_of_digits hdigits, Option.some_inj]
  apply BitVec.eq_of_toNat_eq
  rw [BitVec.toNat_ofNat]
  omega

theorem eq_renderWord_of_parseWord (h : parseWord line = some w) : line = renderWord w := by
  unfold parseWord at h
  split at h
  next a b c d hline =>
    cases h
    simp only [List.map_eq_cons_iff, List.map_eq_nil_iff] at hline
    obtain ⟨ca, _, rfl, hca, cb, _, rfl, hcb, cc, _, rfl, hcc, cd, _, rfl, hcd, rfl⟩ := hline
    obtain ⟨ha, rfl⟩ := eq_hexDigit_of_hexDigitValue hca
    obtain ⟨hb, rfl⟩ := eq_hexDigit_of_hexDigitValue hcb
    obtain ⟨hc, rfl⟩ := eq_hexDigit_of_hexDigitValue hcc
    obtain ⟨hd, rfl⟩ := eq_hexDigit_of_hexDigitValue hcd
    exact (renderWord_ofNat ha hb hc hd).symm
  · cases h

/-! ### Files -/

theorem parseImage_renderImage (image : List Word) : parseImage (renderImage image) = some image := by
  induction image with
  | nil => rfl
  | cons w rest ih =>
    rw [renderImage, List.map_cons, parseImage, parseWord_renderWord, ← renderImage, ih]

theorem eq_renderImage_of_parseImage {file : List (List Char)} {image : List Word}
    (h : parseImage file = some image) : file = renderImage image := by
  induction file generalizing image with
  | nil =>
    cases h
    rfl
  | cons line rest ih =>
    rw [parseImage] at h
    split at h
    next w words hline hrest =>
      cases h
      rw [eq_renderWord_of_parseWord hline, ih hrest]
      rfl
    · cases h

/-- Settles O48: rendering is the one way to write a file that is read. -/
theorem imageFileReadsBack : Obligations.ImageFileReadsBack := by
  intro image file
  refine ⟨eq_renderImage_of_parseImage, ?_⟩
  rintro rfl
  exact parseImage_renderImage image

/-- Settles O49: the four digits are the word's in base 16. -/
theorem imageLineSpellsTheWord : Obligations.ImageLineSpellsTheWord := by
  intro w
  have hw := w.isLt
  have hlt (n : Nat) : n % 16 < 16 := Nat.mod_lt n (by decide)
  refine ⟨w.toNat / 4096 % 16, w.toNat / 256 % 16, w.toNat / 16 % 16, w.toNat % 16, hlt _, hlt _, hlt _, hlt _,
    by omega, ?_⟩
  rw [renderWord, List.map_cons, List.map_cons, List.map_cons, List.map_cons, List.map_nil, some_hexDigit (hlt _),
    some_hexDigit (hlt _), some_hexDigit (hlt _), some_hexDigit (hlt _)]
  rfl

end Sys2Proof.ImageFile
end

section
/-!
PROOFS. The words of an assembled source (spec/30_encoding.md R64 to R68): each is reduced to its field, a reference
that does not resolve leaves none, and the transcriber's are the assembler's.
-/

namespace Sys2Proof.Assembler

variable {source : List Line} {l rest name token : Line} {n : Nat} {table : LabelTable} {words : List Word}
  {m : Mnemonic} {val : Int}

/-! ### The word of an instruction line -/

theorem opcodeNumber_instrOf (m : Mnemonic) (a : Operand) :
    (instrOf m a).opcodeNumber = (instrOf m 0).opcodeNumber := by
  cases m <;> rfl

theorem operandField_instrOf (m : Mnemonic) (a : Operand) : (instrOf m a).operandField = a := by
  cases m <;> rfl

/-- The opcode stands in bits 15:12 and the value, modulo 2^12, below it (R66). -/
theorem toNat_instructionWord (m : Mnemonic) (val : Int) :
    ((instructionWord m val).toNat : Int) = (instrOf m 0).opcodeNumber * 4096 + val % 4096 := by
  have hval : ((BitVec.ofInt 12 val).toNat : Int) = val % 4096 := by
    rw [BitVec.toNat_ofInt]
    exact Int.toNat_of_nonneg (Int.emod_nonneg val (by decide))
  rw [instructionWord, toNat_encode, opcodeNumber_instrOf, operandField_instrOf]
  push_cast
  rw [hval]

theorem emitted_token (htoken : operandToken rest = some token) (hlabel : token.head? ≠ some ':') :
    emitted table n (.instruction m rest) = .ok (some (instructionWord m (parseInt token))) := by
  rw [emitted, htoken]
  split
  next h => cases h
  next name h =>
    cases h
    exact absurd rfl hlabel
  next h =>
    cases h
    rfl

theorem emitted_label {addr : Nat} (htoken : operandToken rest = some (':' :: name))
    (haddr : lookupLabel table name = some addr) :
    emitted table n (.instruction m rest) = .ok (some (instructionWord m addr)) := by
  simp only [emitted, htoken, haddr]

theorem emitted_unresolved (htoken : operandToken rest = some (':' :: name))
    (haddr : lookupLabel table name = none) :
    emitted table n (.instruction m rest) = .error (.unresolvedLabel n) := by
  simp only [emitted, htoken, haddr]

/-! ### The operand token -/

/-- Characters that are no whitespace stay in the token they follow. -/
theorem tokensFrom_of_no_space {before : Line} (h : ∀ c ∈ token, isSpace c = false) :
    tokensFrom before token = flushToken (before ++ token) := by
  induction token generalizing before with
  | nil => rw [tokensFrom, List.append_nil]
  | cons c token ih =>
    obtain ⟨hc, htoken⟩ := List.forall_mem_cons.mp h
    simp [tokensFrom, hc, ih htoken]

theorem operandToken_space_cons (hne : token ≠ []) (h : ∀ c ∈ token, isSpace c = false ∧ c ≠ ';') :
    operandToken (' ' :: token) = some token := by
  have htokens : tokens (' ' :: token) = [token] := by
    have hspace : isSpace ' ' = true := by decide
    rw [tokens, tokensFrom, if_pos hspace, tokensFrom_of_no_space fun c hc => (h c hc).1]
    simp [flushToken, hne]
  have hcomment : mayHoldComment token = false := by
    simpa [mayHoldComment] using fun hmem => (h ';' hmem).2 rfl
  simp only [operandToken, htokens, hcomment]
  rfl

/-- Settles O50: both kinds of line narrow their value by `BitVec.ofInt`, which reduces it. -/
theorem emittedWordsAreMasked : Obligations.EmittedWordsAreMasked := by
  refine ⟨fun table n rest => ⟨_, rfl, Machine.toNat_storedWord _⟩, fun table n m rest => ⟨?_, ?_, ?_, ?_⟩⟩
  · exact fun token htoken hlabel => ⟨_, emitted_token htoken hlabel, toNat_instructionWord m _⟩
  · exact fun name addr htoken haddr => ⟨_, emitted_label htoken haddr, toNat_instructionWord m _⟩
  · rintro rfl
    exact ⟨_, emitted_token rfl nofun, toNat_instructionWord m _⟩
  · rintro token hne htoken rfl
    exact operandToken_space_cons hne htoken

/-! ### Sources that give no words -/

/-- Where pass 2 succeeds every line emits (R67). -/
theorem exists_emitted_of_passTwo (h : passTwo table n source = .ok words) (hl : l ∈ source) :
    ∃ n word, emitted table n (classify l) = .ok word := by
  induction source generalizing n words with
  | nil => cases hl
  | cons l' rest ih =>
    obtain ⟨word, tail, hword, htail, -⟩ := passTwo_cons h
    rcases List.mem_cons.mp hl with rfl | hrest
    · exact ⟨n, word, hword⟩
    · exact ih htail hrest

/-- Settles O53: pass 2 stops at the line, if no earlier one stops it. -/
theorem unresolvedLabelGivesNoImage : Obligations.UnresolvedLabelGivesNoImage := by
  intro source l rest name m table words hl hclass htoken hpass haddr h
  obtain ⟨table', hpass', hwords⟩ := assemble_ok h
  obtain rfl : table = table' := Except.ok.inj (hpass.symm.trans hpass')
  obtain ⟨n, word, hword⟩ := exists_emitted_of_passTwo hwords hl
  rw [hclass, emitted_unresolved htoken haddr] at hword
  cases hword

/-! ### The transcriber -/

theorem classify_ne_malformed_of_transcribable (h : transcribable l = true) : classify l ≠ .malformed := by
  intro hclass
  rw [transcribable, hclass] at h
  cases h

theorem transcribe_eq_some (h : transcribe source = some words) :
    (∀ l ∈ source, transcribable l = true) ∧ assemble source = .ok words := by
  unfold transcribe at h
  split at h
  next hall =>
    refine ⟨List.all_eq_true.mp hall, ?_⟩
    cases hasm : assemble source with
    | error stop => rw [hasm] at h; cases h
    | ok words' => rw [hasm] at h; cases h; rfl
  · cases h

/-- Settles O54: every line is transcribable, and a malformed one is not. -/
theorem transcriberRefusesMalformedLines : Obligations.TranscriberRefusesMalformedLines := by
  intro source words h
  obtain ⟨hlines, hasm⟩ := transcribe_eq_some h
  exact ⟨hasm, fun l hl => classify_ne_malformed_of_transcribable (hlines l hl)⟩

end Sys2Proof.Assembler
end
